-- ==== Sys2Proof/Word.lean ====
section
/-!
DEFINITION. The block's plain data: bits, the 32-bit register word, lines of text, hash results and filter values
(spec/00_scope.md R10 to R14; spec/10_state.md R17 to R20).
-/
namespace Sys2Proof

/-- An element of {0, 1} (R10): `false` is 0 and `true` is 1; `Bool.toNat` is its value. -/
abbrev Bit := Bool

/-- The filter register's type, a natural below 2^32 with bit 0 the least significant (R10, R11, R18). -/
abbrev Word32 := BitVec 32

/-- A character of a command line.
DESIGN CHOICE (log entry 1): the spec says only "a finite sequence of characters" (D2). -/
abbrev Character := Char

/-- A command line without its terminator, or a field of one (R30, R49). Text is written the same way. -/
abbrev Line := List Character

/-- The source's HashResult, the ordered pair `(position1, position2)` of raw positions (R20, R67). -/
structure HashResult where
  position1 : Nat
  position2 : Nat
deriving DecidableEq, Repr

/-- A filter value `{bits, newlySet}` (R17 to R19). The width is the constant 32 (R27), held by the type of `bits`. -/
structure Filter where
  /-- The 32-bit register: bit `i` records that some inserted position reduced to `i` (R18). -/
  bits : Word32
  /-- The raw positions of the most recent insertion, for display only (R19). -/
  newlySet : List Nat
deriving DecidableEq, Repr

end Sys2Proof
end

