-- ==== Sys2Proof/Machine/Events.lean ====
section
/-!
DEFINITION. The typed diagnostic events and the membership verdict (spec/10_state.md R32).
-/
namespace Sys2Proof.Machine

/-- The two verdicts of a membership test (R26, R32). -/
inductive Verdict where
  | possiblyPresent
  | definitelyAbsent
deriving DecidableEq, Repr

/-- A diagnostic event: the kinds and payloads of R32's table. Their text is not part of the block (R4, R32). -/
inductive Event where
  /-- `EV_USAGE(text)` -/
  | usage (text : List Line)
  /-- `EV_ERR_COMMAND(reason)` -/
  | errCommand (reason : Line)
  /-- `EV_ERR_ARGUMENT(arg)` -/
  | errArgument (arg : Line)
  /-- `EV_HASH(p1, p2)`, the raw positions -/
  | hash (p1 p2 : Nat)
  /-- `EV_VERDICT(v)` -/
  | verdict (v : Verdict)
deriving DecidableEq, Repr

end Sys2Proof.Machine
end

