-- ==== Sys2Proof/Config.lean ====
section
/-!
DEFINITION. The configuration (spec/10_state.md R27; spec/00_scope.md R8): plain data that a state carries and no command
writes (R28), what makes it legal, and the values the spec leaves OPEN, as uninterpreted constants with no body.
-/
namespace Sys2Proof

/-- HASH_SEL: the active hash strategy (R27, R91). -/
inductive HashSel where
  | shift
  | matrix
deriving DecidableEq, Repr

/-- ARG_PARSE: the strict grammar of R56, or the host's own parser (`Config.openHostParse`).
DESIGN CHOICE (log entry 6): a selector, since State is plain data. -/
inductive ArgParse where
  | strict
  | host
deriving DecidableEq, Repr

/-- A 5 by 64 matrix over {0, 1} (R74), one 64-bit number a row: entry `(i, j)` is bit `63-j` of row `i`, as R76 allows. -/
structure BitMatrix where
  row0 : BitVec 64
  row1 : BitVec 64
  row2 : BitVec 64
  row3 : BitVec 64
  row4 : BitVec 64
deriving DecidableEq, Repr, Inhabited

/-- The configuration values of R27 that are data. FILTER_WIDTH is the constant 32; DIAG_RENDER is `Config.diagRender`. -/
structure Config where
  /-- HASH_SEL -/
  hashSel : HashSel
  /-- H1 -/
  h1 : BitMatrix
  /-- H2 -/
  h2 : BitMatrix
  /-- ARG_MIN -/
  argMin : Int
  /-- ARG_MAX -/
  argMax : Int
  /-- ARG_PARSE -/
  argParse : ArgParse
  /-- QUERY_SETS_LAST_HASH -/
  querySetsLastHash : Bool
  /-- USAGE_TEXT, line by line -/
  usageText : List Line
deriving DecidableEq, Repr

/-- The verbs whose synopses the help text holds (R27, R94). -/
def Config.advertisedVerbs : List Line :=
  [['l', 'o', 'g'], ['q', 'u', 'e', 'r', 'y'], ['r', 'e', 's', 'e', 't'], ['h', 'e', 'l', 'p']]

/-- R27's legal values of USAGE_TEXT: a multi-line text naming `log`, `query`, `reset` and `help`.
DESIGN CHOICE (log entry 7): "multi-line" is two lines or more, "naming" is that some line contains the word. -/
abbrev Config.legalUsageText (text : List Line) : Prop :=
  2 ≤ text.length ∧ ∀ v ∈ Config.advertisedVerbs, ∃ l ∈ text, v <:+: l

/-- The legal configurations of R27 (the constraint on the range is R9's). -/
abbrev Config.legal (c : Config) : Prop :=
  c.argMin ≤ 0 ∧ 7 ≤ c.argMax ∧ Config.legalUsageText c.usageText

/-- H1, OPEN (R74, D7): "any value is acceptable". -/
opaque Config.openH1 : BitMatrix

/-- H2, OPEN (R74, D7). -/
opaque Config.openH2 : BitMatrix

/-- The host's lower bound on arguments, OPEN (R57, D4). -/
opaque Config.openArgMin : Int

/-- The host's upper bound on arguments, OPEN (R57, D4). -/
opaque Config.openArgMax : Int

/-- The help text, OPEN (R94, D11). -/
opaque Config.openUsageText : List Line

/-- A host's own argument parser, OPEN (R56, D3). -/
opaque Config.openHostParse : Line → Option Int

/-- DIAG_RENDER, OPEN (R32, D11): the text lines of an event, read by the external sink only. -/
opaque Config.diagRender : Machine.Event → List Line

/-- The configuration of `State.reset`: the defaults of R27 where it gives one; else the OPEN constant, moved into R27's
legal values where it lies outside them (log entries 5 and 7): every legal value stays possible and no other is. -/
def Config.atReset : Config where
  hashSel := .shift
  h1 := Config.openH1
  h2 := Config.openH2
  argMin := min Config.openArgMin 0
  argMax := max Config.openArgMax 7
  argParse := .strict
  querySetsLastHash := false
  usageText := if Config.legalUsageText Config.openUsageText then Config.openUsageText else Config.advertisedVerbs

end Sys2Proof
end

