-- ==== Sys2Proof/Syntax.lean ====
section
/-!
DEFINITION. The instruction set: one constructor for each row of spec/opcode_table.json (spec/30_encoding.md R59).
The four LINE rows are the decoded commands (R52); the nine UNIT rows are the function units applied directly to operands.
-/
namespace Sys2Proof

/-- The rows of the opcode table. A unit whose contract speaks of non-negative integers takes an `Int`, so that a use
outside its contract (spec/60_exceptions.md R111) can be written down (log entry 18). -/
inductive Instr where
  /-- LINE `usage` (R94); the rest of its line is dropped (R52). -/
  | usage
  /-- LINE `log <arg>` (R95), with its raw argument string (R55). -/
  | log (arg : Line)
  /-- LINE `query <arg>` (R96), with its raw argument string (R55). -/
  | query (arg : Line)
  /-- LINE with any other verb (R53, R97). -/
  | invalid (reason : Line)
  /-- UNIT `toBits(value, width)` (R63). -/
  | toBits (value width : Nat)
  /-- UNIT `fromBits(s)` (R64). -/
  | fromBits (s : List Bit)
  /-- UNIT `ShiftHasher.calculate(value)` (R66). -/
  | shiftHash (value : Int)
  /-- UNIT `MatrixHasher.calculate(value)` (R75); `H1` and `H2` are the configuration's. -/
  | matrixHash (value : Int)
  /-- UNIT `mask(positions)` (R82). -/
  | mask (positions : List Int)
  /-- UNIT `dedup(positions)` (R83). -/
  | dedup (positions : List Nat)
  /-- UNIT `insert(existing, newPositions)` (R84). -/
  | insert (existing : Filter) (newPositions : List Int)
  /-- UNIT `has(filter, positions)` (R85). -/
  | has (filter : Filter) (positions : List Int)
  /-- UNIT `refresh(existing)` (R86). -/
  | refresh (existing : Filter)
deriving DecidableEq, Repr

/-- The rows of format LINE: the instructions a command line can select (R59). -/
def Instr.isLine : Instr → Bool
  | .usage => true
  | .log _ => true
  | .query _ => true
  | .invalid _ => true
  | .toBits _ _ => false
  | .fromBits _ => false
  | .shiftHash _ => false
  | .matrixHash _ => false
  | .mask _ => false
  | .dedup _ => false
  | .insert _ _ => false
  | .has _ _ => false
  | .refresh _ => false

/-- The reason that the one Invalid form carries (R52, R53). -/
def invalidReason : Line :=
  ['I', 'n', 'v', 'a', 'l', 'i', 'd', ' ', 'c', 'o', 'm', 'm', 'a', 'n', 'd']

end Sys2Proof
end

