-- ==== Sys2Proof/Machine/State.lean ====
section
/-!
DEFINITION. The state, as plain data, and the reasons a step can stop (spec/10_state.md; spec/60_exceptions.md section 3).
-/
namespace Sys2Proof.Machine

/-- The model faults. -/
inductive Fault where
  /-- `F_NEG_ARG(arg)` (R109), the only one: a `log` or `query` whose argument string parsed to a negative integer.
  Raised by `execLog` and `execQuery`, which set the mark `State.fault`, and reported by every later `step` (R110).
  Safe: the source gives the case no meaning, and the machine stops. -/
  | negArg (arg : Line)
deriving DecidableEq, Repr

/-- The uses the model gives no meaning to. -/
inductive Refusal where
  /-- An instruction still rejected by name in exec's arm. Safe: the machine stops. -/
  | notModelled (mnemonic : String)
  /-- `TOBITS_WIDTH0` (R111): raised by `execToBits` at width 0. Safe: outside the unit's contract, no command reaches it. -/
  | toBitsWidth0
  /-- `HASH_NEG_VALUE` (R111): raised by `execShiftHash` and `execMatrixHash` on a negative value. Safe, as above. -/
  | hashNegValue
  /-- `MASK_NEG_POSITION` (R111): raised by `execMask`, `execInsert` and `execHas` on a negative position. Safe, as above. -/
  | maskNegPosition
  /-- `HAS_ARITY` (R111): raised by `execHas` on other than two positions. Safe, as above. -/
  | hasArity
deriving DecidableEq, Repr

/-- The completion status of a command (R101). -/
inductive Status where
  | ok
  | cmdErr
  | argErr
deriving DecidableEq, Repr

/-- A value that a function unit delivers when it is applied directly (the results of R63, R64, R66, R75, R82 to R86). -/
inductive UnitValue where
  | bits (s : List Bit)
  | nat (n : Nat)
  | pair (h : HashResult)
  | word (m : Word32)
  | positions (ps : List Nat)
  | filter (f : Filter)
  | bool (b : Bool)
deriving DecidableEq, Repr

/-- The source's TrackerState: the whole architectural state of the block (R17). -/
structure TrackerState where
  filter : Filter
  /-- `lastHashResult`, informational only (R20). -/
  lastHash : Option HashResult
deriving DecidableEq, Repr

/-- The state of the model: the tracker state, the configuration, the interfaces' contents and the model-only fields. -/
structure State where
  /-- The architectural state (R17). -/
  tracker : TrackerState
  /-- The spec's model-only fault mark (R22). -/
  fault : Option Fault
  /-- The configuration, fixed at reset (R27, R28). -/
  config : Config
  /-- The command lines the environment has presented and the block has not yet accepted, the next one first (R25, R30). -/
  input : List Line
  /-- The diagnostic output, the earliest event first (R31). -/
  output : List Event
  /-- The statuses of the commands completed since reset, the earliest first (R101, R124). -/
  statuses : List Status
  /-- THE MODEL'S OWN field, not the spec's (log entry 4): what the function unit applied last delivered. -/
  unitOut : Option UnitValue
deriving DecidableEq, Repr

/-- The tracker state at reset: the filter "created empty", no computation recorded (R35). -/
def TrackerState.reset : TrackerState where
  filter := { bits := 0, newlySet := [] }
  lastHash := none

/-- A reset with a configuration: the start of a session, in which nothing of an earlier one survives (R118, R35). -/
def State.resetWith (c : Config) : State where
  tracker := TrackerState.reset
  fault := none
  config := c
  input := []
  output := []
  statuses := []
  unitOut := none

/-- The machine right after reset, with R27's default configuration and its OPEN values free (R35, R118). -/
def State.reset : State := State.resetWith Config.atReset

/-- What an instruction or a step answers. -/
abbrev Result := Host.Outcome State Fault Refusal

end Sys2Proof.Machine
end

