-- ==== Sys2Proof/Machine/Ops.lean ====
section
/-!
DEFINITION. The named operations on the state: emitting events, completing, committing, the recoverable error, the model
fault, the units' output and the command input (spec/00_scope.md R15, R16; spec/60_exceptions.md).
There is no memory (R36) and no numbered register (R24): the registers are read and written by name.
-/
namespace Sys2Proof.Machine

/-- `emit` of R15 for a list of events: appended to the diagnostic output in list order (R31, R90). -/
def State.emit (events : List Event) (s : State) : State :=
  { s with output := s.output ++ events }

/-- A command completes with its status (R101). -/
def State.complete (status : Status) (s : State) : State :=
  { s with statuses := s.statuses ++ [status] }

/-- The tracker state is replaced whole (R16, R42, R81). -/
def State.setTracker (t : TrackerState) (s : State) : State :=
  { s with tracker := t }

/-- The commit of a command: new tracker state, events and status take effect together (R16, R42, R90). -/
def State.commit (t : TrackerState) (events : List Event) (status : Status) (s : State) : State :=
  ((s.setTracker t).emit events).complete status

/-- A recoverable error: one event and the status, nothing else (R102, R103, R106). It is no trap: it saves nothing and
transfers no control, so there is nothing to return from (R106, R107). -/
def State.recoverableError (event : Event) (status : Status) (s : State) : State :=
  (s.emit [event]).complete status

/-- `raise F(info)` of R15: the sticky mark is set; no tracker state is written, no event emitted, no status given
(R92, R109, R110). DEDUCED (log entry 9): a next state, whose mark then stops every step. -/
def State.raise (f : Fault) (s : State) : State :=
  { s with fault := some f }

/-- A function unit applied directly delivers its value and writes nothing else (R62, R81; log entry 4). -/
def State.deliver (v : UnitValue) (s : State) : State :=
  { s with unitOut := some v }

/-- The command input after the environment or a fetch has changed it (R30). -/
def State.setInput (lines : List Line) (s : State) : State :=
  { s with input := lines }

/-- Waiting for a line: the block holds its state (R117, R118; log entry 10). -/
def State.await (s : State) : State := s

end Sys2Proof.Machine
end

