-- ==== Sys2Proof/Machine/BitUtils.lean ====
section
/-!
DEFINITION. The BitUtils conversion unit and the two UNIT rows that apply it (spec/40_bitutils.md).
-/
namespace Sys2Proof.Machine

/-- `toBits` of R63 on a legal width: element `i` is `(value >> (width-1-i)) & 1`. -/
def toBits (value width : Nat) : List Bit :=
  (List.range width).map (fun i => ((value >>> (width - 1 - i)) &&& 1) == 1)

/-- `fromBits` of R64: the left fold `acc = (acc << 1) | bit` from 0. -/
def fromBits (s : List Bit) : Nat :=
  s.foldl (fun acc b => (acc <<< 1) ||| b.toNat) 0

/-- UNIT `toBits` (R63): width 0 is outside the contract and refused (R111). -/
def execToBits (value width : Nat) (s : State) : Result :=
  if width = 0 then .refused .toBitsWidth0
  else .next (s.deliver (.bits (toBits value width)))

/-- UNIT `fromBits` (R64), total. -/
def execFromBits (bs : List Bit) (s : State) : Result :=
  .next (s.deliver (.nat (fromBits bs)))

end Sys2Proof.Machine
end

