-- ==== Sys2Proof/Machine/Operands.lean ====
section
/-!
DEFINITION. The operand forms: the argument string of `log` and `query` (spec/30_encoding.md section 3) and the integers
given to a unit applied directly (spec/60_exceptions.md R111).
-/
namespace Sys2Proof.Machine

/-- The value of a DIGIT of R56, ASCII `0` to `9`. -/
def digitValue (c : Character) : Option Nat :=
  if 48 ≤ c.toNat ∧ c.toNat ≤ 57 then some (c.toNat - 48) else none

/-- The base-10 value of a string of digits after those already read into `acc`; none at any other character. -/
def decimalFrom (acc : Nat) : Line → Option Nat
  | [] => some acc
  | c :: cs => (digitValue c).bind (fun d => decimalFrom (acc * 10 + d) cs)

/-- `DIGIT DIGIT*` of R56. -/
def decimal : Line → Option Nat
  | [] => none
  | c :: cs => decimalFrom 0 (c :: cs)

/-- The default ARG_PARSE (R56): an optional `-`, then digits, matched against the whole string. -/
def strictArgParse : Line → Option Int
  | [] => none
  | c :: cs =>
    if c = '-' then (decimal cs).map (fun n : Nat => -(n : Int))
    else (decimal (c :: cs)).map (fun n : Nat => (n : Int))

/-- A host's ARG_PARSE (R56): the OPEN parser, except on `5`, `7` and `abc`, where R56 asks it to agree with the strict
grammar (log entry 6). -/
def hostArgParse (arg : Line) : Option Int :=
  if arg = ['5'] ∨ arg = ['7'] ∨ arg = ['a', 'b', 'c'] then strictArgParse arg else Config.openHostParse arg

/-- ARG_PARSE of the configuration (R27, R56). -/
def argParse (c : Config) (arg : Line) : Option Int :=
  match c.argParse with
  | .strict => strictArgParse arg
  | .host => hostArgParse arg

/-- `ParseArg` of R57: a value outside the configured range is a parse failure, not a wrap-around. -/
def parseArg (c : Config) (arg : Line) : Option Int :=
  match argParse c arg with
  | none => none
  | some n => if c.argMin ≤ n ∧ n ≤ c.argMax then some n else none

/-- The natural that a unit's operand stands for; none for a negative one (R111). -/
def natural (value : Int) : Option Nat :=
  if value < 0 then none else some value.toNat

/-- The naturals that a list of positions stands for; none if any is negative (R111). -/
def naturals : List Int → Option (List Nat)
  | [] => some []
  | p :: ps =>
    match natural p, naturals ps with
    | some n, some ns => some (n :: ns)
    | _, _ => none

end Sys2Proof.Machine
end

