-- ==== Sys2Proof/Machine/BloomFilter.lean ====
section
/-!
DEFINITION. The BloomFilter unit and the five UNIT rows that apply it (spec/43_bloom_filter.md). Filter values are replaced,
never changed in place (R81).
-/
namespace Sys2Proof.Machine

/-- The register bit that a raw position selects: `1 << (p mod 32)`, the point of use of R72. -/
def positionBit (p : Nat) : Word32 := 1#32 <<< (p % 32)

/-- `mask` of R82. -/
def mask (positions : List Nat) : Word32 :=
  positions.foldl (fun m p => m ||| positionBit p) 0#32

/-- `dedup` of R83: raw equality, order of first occurrence. -/
def dedup (positions : List Nat) : List Nat :=
  positions.foldl (fun out p => if p ∈ out then out else out ++ [p]) []

/-- `insert` of R84. -/
def insert (existing : Filter) (newPositions : List Nat) : Filter where
  bits := existing.bits ||| mask newPositions
  newlySet := dedup newPositions

/-- The test of `has` (R85): every bit of the probe mask is set in the filter. -/
def has (filter : Filter) (positions : List Nat) : Bool :=
  (filter.bits &&& mask positions) == mask positions

/-- `refresh` of R86. -/
def refresh (existing : Filter) : Filter where
  bits := existing.bits
  newlySet := []

/-- UNIT `mask` (R82): a negative position is refused (R111). -/
def execMask (positions : List Int) (s : State) : Result :=
  match naturals positions with
  | none => .refused .maskNegPosition
  | some ps => .next (s.deliver (.word (mask ps)))

/-- UNIT `dedup` (R83). -/
def execDedup (positions : List Nat) (s : State) : Result :=
  .next (s.deliver (.positions (dedup positions)))

/-- UNIT `insert` (R84): a negative position is refused by its `mask` (R111). -/
def execInsert (existing : Filter) (newPositions : List Int) (s : State) : Result :=
  match naturals newPositions with
  | none => .refused .maskNegPosition
  | some ps => .next (s.deliver (.filter (insert existing ps)))

/-- UNIT `has` (R85): other than two positions is refused first, then a negative position by its `mask` (R111). -/
def execHas (filter : Filter) (positions : List Int) (s : State) : Result :=
  if positions.length ≠ 2 then .refused .hasArity
  else
    match naturals positions with
    | none => .refused .maskNegPosition
    | some ps => .next (s.deliver (.bool (has filter ps)))

/-- UNIT `refresh` (R86). -/
def execRefresh (existing : Filter) (s : State) : Result :=
  .next (s.deliver (.filter (refresh existing)))

end Sys2Proof.Machine
end

