-- ==== Sys2Proof/Machine/Flags.lean ====
section
/-!
DEFINITION. The block has no flags or condition codes (spec/10_state.md R26). What stands in their place: the membership
verdict, delivered as an event, and the numeric code of a completion status (spec/60_exceptions.md R101).
-/
namespace Sys2Proof.Machine

/-- The verdict that `query` reports for the result of `has` (R96, R85). -/
def verdictOf (present : Bool) : Verdict :=
  if present then .possiblyPresent else .definitelyAbsent

/-- The code of a completion status (R101). -/
def Status.code : Status → Nat
  | .ok => 0
  | .cmdErr => 1
  | .argErr => 2

end Sys2Proof.Machine
end

