-- ==== Sys2Proof/Machine/MatrixHasher.lean ====
section
/-!
DEFINITION. The MatrixHasher unit and the UNIT row that applies it (spec/42_matrix_hasher.md).
-/
namespace Sys2Proof.Machine

/-- The five rows of a matrix, row 0 first (R74). -/
def matrixRows (h : BitMatrix) : List (BitVec 64) := [h.row0, h.row1, h.row2, h.row3, h.row4]

/-- `H(i, j)` of R74, for `i` in 0..4 and `j` in 0..63: bit `63-j` of the number that holds row `i` (R76). -/
def entry (h : BitMatrix) (i j : Nat) : Bit :=
  match (matrixRows h)[i]? with
  | none => false
  | some row => row.getLsbD (63 - j)

/-- `row_i(H)` as the list `[H(i,0), ..., H(i,63)]` of R74: entry `j` is bit `63-j` of the row's number (R76). -/
def rowBits (row : BitVec 64) : List Bit :=
  (List.range 64).map (fun j => row.getLsbD (63 - j))

/-- `popcount_list` of R75: the number of 1 entries. -/
def popcountList (s : List Bit) : Nat := s.countP (fun b => b)

/-- One entry of the result of `matmul` (R75): the parity of the row AND the vector. -/
def rowParity (row : BitVec 64) (v : List Bit) : Bit :=
  popcountList (List.zipWith (fun h b => h && b) (rowBits row) v) % 2 == 1

/-- `matmul` of R75: row 0 gives the most significant bit. -/
def matmul (h : BitMatrix) (v : List Bit) : Nat :=
  fromBits ((matrixRows h).map (fun row => rowParity row v))

/-- `MatrixHasher.calculate` of R75, with the configuration's matrices. -/
def matrixHash (c : Config) (value : Nat) : HashResult where
  position1 := matmul c.h1 (toBits value 64)
  position2 := matmul c.h2 (toBits value 64)

/-- UNIT `MatrixHasher.calculate` (R75): a negative value is refused (R111). -/
def execMatrixHash (value : Int) (s : State) : Result :=
  match natural value with
  | none => .refused .hashNegValue
  | some n => .next (s.deliver (.pair (matrixHash s.config n)))

end Sys2Proof.Machine
end

