-- ==== Sys2Proof/Machine/ShiftHasher.lean ====
section
/-!
DEFINITION. The ShiftHasher unit and the UNIT row that applies it (spec/41_shift_hasher.md).
-/
namespace Sys2Proof.Machine

/-- The loop of R66 from `x`, `ctr` and the accumulator `acc`. The first argument bounds the iterations: the loop ends when
`x` is 0, and `x` iterations are always enough since `x` strictly decreases (R70; log entry 16). -/
def shiftLoop : Nat → Nat → Nat → Nat → Nat
  | 0, _, _, acc => acc
  | fuel + 1, x, ctr, acc =>
    if x = 0 then acc else shiftLoop fuel (x >>> 2) (ctr + 1) (acc ||| ((x &&& 1) <<< ctr))

/-- One accumulator of R66: the loop run from `x` with the counter and the accumulator at 0. -/
def packAlternate (x : Nat) : Nat := shiftLoop x x 0 0

/-- `ShiftHasher.calculate` of R66: the pair is returned odds first (R67), and not reduced (R72). -/
def shiftHash (value : Nat) : HashResult where
  position1 := packAlternate (value >>> 1)
  position2 := packAlternate value

/-- UNIT `ShiftHasher.calculate` (R66): a negative value is refused (R111). -/
def execShiftHash (value : Int) (s : State) : Result :=
  match natural value with
  | none => .refused .hashNegValue
  | some n => .next (s.deliver (.pair (shiftHash n)))

end Sys2Proof.Machine
end

