-- ==== Sys2Proof/Machine/Commands.lean ====
section
/-!
DEFINITION. The four commands (spec/44_commands.md section 2).
-/
namespace Sys2Proof.Machine

/-- The active hash strategy (R91). -/
def hash (c : Config) (n : Nat) : HashResult :=
  match c.hashSel with
  | .shift => shiftHash n
  | .matrix => matrixHash c n

/-- What `log` and `query` share: the argument is parsed when the command executes (R55); a parse failure is the
recoverable error of R93, a negative value the model fault of R92, and any other value is handed on (R105's order). -/
def withArgument (arg : Line) (s : State) (run : Nat → Result) : Result :=
  match parseArg s.config arg with
  | none => .next (s.recoverableError (.errArgument arg) .argErr)
  | some n =>
    match natural n with
    | none => .next (s.raise (.negArg arg))
    | some v => run v

/-- What `query` leaves in `lastHash` (R20, R96): the new pair only where QUERY_SETS_LAST_HASH says so. -/
def lastHashAfterQuery (c : Config) (h : HashResult) (old : Option HashResult) : Option HashResult :=
  if c.querySetsLastHash then some h else old

/-- LINE `usage` (R94). -/
def execUsage (s : State) : Result :=
  .next (s.commit s.tracker [.usage s.config.usageText] .ok)

/-- LINE `log <arg>` (R95). -/
def execLog (arg : Line) (s : State) : Result :=
  withArgument arg s fun n =>
    let h := hash s.config n
    let filter := insert s.tracker.filter [h.position1, h.position2]
    .next (s.commit { filter := filter, lastHash := some h } [.hash h.position1 h.position2] .ok)

/-- LINE `query <arg>` (R96). -/
def execQuery (arg : Line) (s : State) : Result :=
  withArgument arg s fun n =>
    let h := hash s.config n
    let present := has s.tracker.filter [h.position1, h.position2]
    .next (s.commit
      { filter := refresh s.tracker.filter, lastHash := lastHashAfterQuery s.config h s.tracker.lastHash }
      [.hash h.position1 h.position2, .verdict (verdictOf present)] .ok)

/-- LINE with a verb outside the table (R97): CommandParseError, recoverable (R102). -/
def execInvalid (reason : Line) (s : State) : Result :=
  .next (s.recoverableError (.errCommand reason) .cmdErr)

end Sys2Proof.Machine
end

