-- ==== Sys2Proof/Machine/Dispatch.lean ====
section
/-! DEFINITION. The meaning of every instruction: one arm per constructor of Instr, each one call of its meaning. -/
namespace Sys2Proof.Machine

def exec (i : Instr) (s : State) : Host.Outcome State Fault Refusal :=
  match i with
  -- LINE rows (spec/44_commands.md)
  | .usage => Sys2Proof.Machine.execUsage s
  | .log arg => Sys2Proof.Machine.execLog arg s
  | .query arg => Sys2Proof.Machine.execQuery arg s
  | .invalid reason => Sys2Proof.Machine.execInvalid reason s
  -- UNIT rows (spec/40_bitutils.md to spec/43_bloom_filter.md)
  | .toBits value width => Sys2Proof.Machine.execToBits value width s
  | .fromBits bits => Sys2Proof.Machine.execFromBits bits s
  | .shiftHash value => Sys2Proof.Machine.execShiftHash value s
  | .matrixHash value => Sys2Proof.Machine.execMatrixHash value s
  | .mask positions => Sys2Proof.Machine.execMask positions s
  | .dedup positions => Sys2Proof.Machine.execDedup positions s
  | .insert existing newPositions => Sys2Proof.Machine.execInsert existing newPositions s
  | .has filter positions => Sys2Proof.Machine.execHas filter positions s
  | .refresh existing => Sys2Proof.Machine.execRefresh existing s

end Sys2Proof.Machine
end

