-- ==== Sys2Proof/WellFormed.lean ====
section
/-!
DEFINITION. Which instruction terms are well formed: a command as the decoder can produce it, a unit within its contract
(spec/30_encoding.md R53; spec/60_exceptions.md R111).
-/
namespace Sys2Proof

/-- Every position is non-negative: the contract of `mask`, `insert` and `has` (R82, R111). -/
def nonNegative (positions : List Int) : Bool :=
  positions.all (fun p => decide (0 ≤ p))

/-- The well-formedness check, one line per constructor. A `log` or `query` may carry any string: its argument is only
parsed when it executes (R55). -/
def Instr.wellFormed : Instr → Bool
  | .usage => true
  | .log _ => true
  | .query _ => true
  | .invalid reason => reason == invalidReason
  | .toBits _ width => decide (1 ≤ width)
  | .fromBits _ => true
  | .shiftHash value => decide (0 ≤ value)
  | .matrixHash value => decide (0 ≤ value)
  | .mask positions => nonNegative positions
  | .dedup _ => true
  | .insert _ newPositions => nonNegative newPositions
  | .has _ positions => decide (positions.length = 2) && nonNegative positions
  | .refresh _ => true

/-- An instruction the rest of the model gives a meaning within its contract. -/
abbrev WellFormed (i : Instr) : Prop := i.wellFormed = true

end Sys2Proof
end

