-- ==== Sys2Proof/Decode.lean ====
section
/-!
DEFINITION. The decoder (spec/30_encoding.md R49 to R54), total on every line: a verb outside the table is decoded to the
Invalid command, which is how this hardware rejects by name (R53, R60). After it the encoder, and the byte form in which
the host's words hand a line to the decoder.
-/
namespace Sys2Proof

/-- U+0020, the one separator (R49, R50). -/
def space : Character := ' '

/-- The verb of the row `usage` (R59). -/
def verbUsage : Line := ['u', 's', 'a', 'g', 'e']

/-- The verb of the row `log` (R59). -/
def verbLog : Line := ['l', 'o', 'g']

/-- The verb of the row `query` (R59). -/
def verbQuery : Line := ['q', 'u', 'e', 'r', 'y']

/-- `Split` of R49: the line cut at its first space into `(verb, rest)`. -/
def split : Line → Line × Line
  | [] => ([], [])
  | c :: cs => if c = space then ([], cs) else (c :: (split cs).1, (split cs).2)

/-- `Parse` of R52. The match on the verb is exact (R52, R50). -/
def decode (line : Line) : Instr :=
  let (verb, rest) := split line
  if verb = verbUsage then .usage
  else if verb = verbLog then .log rest
  else if verb = verbQuery then .query rest
  else .invalid invalidReason

/-- A line that decodes to the command (R49, R59, R61), written as the assembler syntax has it: verb, one space, argument.
An Invalid command is written as the empty line, one of those R53 names. A UNIT row has no encoding (R59).
DESIGN CHOICE (log entry 14) of one line among those that decode to the same command. -/
def encode : Instr → Option Line
  | .usage => some verbUsage
  | .log arg => some (verbLog ++ space :: arg)
  | .query arg => some (verbQuery ++ space :: arg)
  | .invalid _ => some []
  | .toBits _ _ => none
  | .fromBits _ => none
  | .shiftHash _ => none
  | .matrixHash _ => none
  | .mask _ => none
  | .dedup _ => none
  | .insert _ _ => none
  | .has _ _ => none
  | .refresh _ => none

/-- The character a byte stands for: its code, as the ASCII lines of spec/95_test_vectors.md section 3.
DESIGN CHOICE (log entry 2): the spec gives a line no byte form; a byte above 0x7F is read as the character of that code. -/
def characterOfByte (b : BitVec 8) : Character := Char.ofNat b.toNat

/-- The line that a sequence of bytes spells, the first byte its first character. -/
def lineOfBytes (bytes : List (BitVec 8)) : Line := bytes.map characterOfByte

/-- The `n` low bytes of `w`, the least significant first (the order in which spec/opcode_table.json's bits are numbered). -/
def bytesOfWord : Nat → Nat → List (BitVec 8)
  | 0, _ => []
  | n + 1, w => BitVec.ofNat 8 w :: bytesOfWord n (w / 256)

/-- The line whose bytes are the `nbits` low bits of `w`: one character for each whole byte. -/
def lineOfWord (nbits w : Nat) : Line := lineOfBytes (bytesOfWord (nbits / 8) w)

/-- The instruction the decoder reads from an instruction's bits (log entry 2). Decoding a line never fails (R54). -/
def decodeTableWord (nbits w : Nat) : Option Instr := some (decode (lineOfWord nbits w))

end Sys2Proof
end

