-- ==== Sys2Proof/Machine/Environment.lean ====
section
/-!
DEFINITION. The command input: how the environment presents a line and how the block takes the next one
(spec/10_state.md R25, R30; spec/70_reset_and_hazards.md R121, R124).
-/
namespace Sys2Proof.Machine

/-- The environment presents command lines after those already waiting (R30, R121, R124; log entry 11). -/
def State.present (lines : List Line) (s : State) : State := s.setInput (s.input ++ lines)

/-- The next command and the state once its line has been taken; none while no line waits (R25, R30, R52). -/
def fetch (s : State) : Option (Instr × State) :=
  match s.input with
  | [] => none
  | line :: rest => some (decode line, s.setInput rest)

/-- The state with the line of an instruction's bits standing before all other waiting lines (log entries 2 and 11). -/
def placeWord (s : State) (nbits w : Nat) : State := s.setInput (lineOfWord nbits w :: s.input)

end Sys2Proof.Machine
end

