-- ==== Sys2Proof/Machine/Step.lean ====
section
/-!
DEFINITION. One step of the block (spec/44_commands.md R90): one command line, taken and executed whole.
-/
namespace Sys2Proof.Machine

/-- `Step` of R90: no step from a faulted state (R110); the next line is decoded and executed (R52, R98); with no line
waiting the block waits (R117, R118; log entry 10). -/
def step (s : State) : Host.Outcome State Fault Refusal :=
  match s.fault with
  | some f => .fault f
  | none =>
    match fetch s with
    | none => .next s.await
    | some (i, s') => exec i s'

/-- The state whose very next step runs the line of an instruction's bits (log entry 11). A fault mark stays (R110). -/
def State.withFetchWord (s : State) (nbits w : Nat) : State := placeWord s nbits w

end Sys2Proof.Machine
end

