-- ==== Sys2Proof/Machine/Readout.lean ====
section
/-!
DEFINITION. What the outside sees between commands: the filter-state readout and the combined diagnostic text
(spec/10_state.md R31 to R33; spec/20_memory.md R38, R43). All are functions of the state: reading changes nothing (R43).
-/
namespace Sys2Proof.Machine

/-- The values the readout exposes (R33). -/
structure Readout where
  bits : Word32
  newlySet : List Nat
  lastHash : Option HashResult
deriving DecidableEq, Repr

/-- The readout: the state as of the last commit (R33, R42). -/
def State.readout (s : State) : Readout where
  bits := s.tracker.filter.bits
  newlySet := s.tracker.filter.newlySet
  lastHash := s.tracker.lastHash

/-- Cell `i` of the 32-cell grid is register bit `i` (R38). -/
def Readout.cellOn (r : Readout) (i : Fin 32) : Bool := r.bits.getLsbD i

/-- The cell a consumer shows as just flipped: one that some position of `newlySet` reduces to (R33, R19, R72). -/
def Readout.cellJustFlipped (r : Readout) (i : Fin 32) : Bool := r.newlySet.any (fun p => p % 32 == i.val)

/-- The combined text of the diagnostic output: DIAG_RENDER of its events in order (R31, R32). -/
def State.combinedText (s : State) : List Line := s.output.flatMap Config.diagRender

end Sys2Proof.Machine
end

