-- ==== Sys2Proof/Safety.lean ====
section
/-!
DEFINITION. What counts as a good run, and the invariant of the tracker state, in the terms the statements use
(spec/70_reset_and_hazards.md R124; spec/10_state.md R19, R20, R22).
-/
namespace Sys2Proof.Machine

/-- `n` steps of the machine, stopping at the first fault or refusal (R124); it is the host's run of `core`
(`run_eq_core_run` in Laws/Step.lean). -/
def run : Nat → State → Result
  | 0, s => .next s
  | n + 1, s =>
    match step s with
    | .next s' => run n s'
    | .fault f => .fault f
    | .refused r => .refused r

/-- A state in which the block can take a step (R110). -/
abbrev Unfaulted (s : State) : Prop := s.fault = none

/-- A run has ended well: every line has committed and there is no fault (R124). -/
abbrev EndedWell (s : State) : Prop := s.input = [] ∧ Unfaulted s

/-- The display invariant: `newlySet` is empty, or it is the deduplicated pair that `lastHash` records and every register
bit it selects is set (R19, R20, R84, R95). -/
def DisplayInv (t : TrackerState) : Prop :=
  t.filter.newlySet = [] ∨
    ∃ h, t.lastHash = some h ∧ t.filter.newlySet = dedup [h.position1, h.position2] ∧
      ∀ p ∈ t.filter.newlySet, t.filter.bits.getLsbD (p % 32) = true

end Sys2Proof.Machine
end

