-- ==== Sys2Proof/Certificates/Slice0/Obligations.lean ====
section
/-!
DEFINITION. The statements for the provers. Each docstring names the rule or section of spec/ that its statement formalises;
a statement that rests on one of the spec's own decisions (D<n>) or on a log entry of the model says so.
-/

open Sys2Proof Sys2Proof.Machine

/-! ### Decoding -/

/-- Sanity: the bytes of spec/95_test_vectors.md section 3 decode as its programs say (section 1.7 for `usage`).
The byte form is the model's choice (log entry 2). -/
def Obligations.SpecLinesDecodeToTheirCommands : Prop :=
  decodeTableWord 40 0x3520676F6C = some (.log ['5']) ∧
  decodeTableWord 56 0x35207972657571 = some (.query ['5']) ∧
  decodeTableWord 40 0x6567617375 = some .usage ∧
  decodeTableWord 40 0x7465736572 = some (.invalid "Invalid command".toList) ∧
  decodeTableWord 80 0x65746163696E626F7266 = some (.invalid "Invalid command".toList)

/-- Every well-formed command has an encoding, and decoding it gives the command back, whatever its argument
(30_encoding.md sections 2 and 4). Which line encodes it is the model's choice (log entry 14). -/
def Obligations.DecodeOfEncodeIsTheCommand : Prop :=
  ∀ i : Instr, i.isLine = true → WellFormed i → ∃ line, encode i = some line ∧ decode line = i

/-- R49: the line is cut at its first space, which belongs to neither field; without a space the rest is empty. -/
def Obligations.SplitCutsAtTheFirstSpace : Prop :=
  (∀ verb rest : Line, ' ' ∉ verb → split (verb ++ ' ' :: rest) = (verb, rest)) ∧
  (∀ line : Line, ' ' ∉ line → split line = (line, []))

/-- 30_encoding.md section 2: exactly the lines whose verb is `usage`, `log` or `query` decode to that command, with the
characters after the first space as argument. That the match is exact is the spec's own decision D22. -/
def Obligations.KnownVerbsDecodeWithTheirRest : Prop :=
  ∀ line : Line,
    (decode line = .usage ↔ line.takeWhile (fun c => c != ' ') = "usage".toList) ∧
    (∀ arg, decode line = .log arg ↔
      line.takeWhile (fun c => c != ' ') = "log".toList ∧
        arg = (line.dropWhile (fun c => c != ' ')).drop 1) ∧
    (∀ arg, decode line = .query arg ↔
      line.takeWhile (fun c => c != ' ') = "query".toList ∧
        arg = (line.dropWhile (fun c => c != ' ')).drop 1)

/-- R53: every line whose verb is not exactly `usage`, `log` or `query` decodes to the Invalid command, the empty line, a
line starting with a space, `reset` and `help` among them. -/
def Obligations.UnknownVerbsDecodeToInvalid : Prop :=
  (∀ line : Line,
    line.takeWhile (fun c => c != ' ') ∉ ["usage".toList, "log".toList, "query".toList] →
      decode line = .invalid "Invalid command".toList) ∧
  decode [] = .invalid "Invalid command".toList ∧
  (∀ line : Line, decode (' ' :: line) = .invalid "Invalid command".toList) ∧
  (∀ verb ∈ ["reset".toList, "help".toList], decode verb = .invalid "Invalid command".toList ∧
    ∀ rest : Line, decode (verb ++ ' ' :: rest) = .invalid "Invalid command".toList)

/-- 30_encoding.md section 4: no line selects a function unit, and a unit has no encoding; what a line decodes to is well
formed. -/
def Obligations.NoLineSelectsAUnit : Prop :=
  (∀ line : Line, (decode line).isLine = true ∧ WellFormed (decode line)) ∧
  (∀ i : Instr, i.isLine = false → encode i = none)

/-! ### Arguments -/

/-- 30_encoding.md section 3: the default ARG_PARSE accepts exactly an optional minus sign and one or more decimal digits,
with their base-10 value. The grammar is the spec's own decision D3. -/
def Obligations.StrictGrammarAcceptsExactlySignedDecimals : Prop :=
  ∀ (arg : Line) (v : Int),
    strictArgParse arg = some v ↔
      ∃ digits : List (Fin 10), digits ≠ [] ∧
        ((arg = digits.map (fun d => Char.ofNat (48 + d.val)) ∧
            v = (Nat.ofDigits 10 (digits.reverse.map Fin.val) : Nat)) ∨
          (arg = '-' :: digits.map (fun d => Char.ofNat (48 + d.val)) ∧
            v = -((Nat.ofDigits 10 (digits.reverse.map Fin.val) : Nat) : Int)))

/-- R57: an argument is the parser's value where that lies in the configured range, and a parse failure otherwise. -/
def Obligations.ParseArgChecksTheRange : Prop :=
  (∀ (c : Config) (arg : Line) (v : Int),
    parseArg c arg = some v ↔ argParse c arg = some v ∧ c.argMin ≤ v ∧ v ≤ c.argMax) ∧
  (∀ (c : Config) (arg : Line),
    parseArg c arg = none ↔ ∀ v, argParse c arg = some v → ¬ (c.argMin ≤ v ∧ v ≤ c.argMax))

/-- 30_encoding.md section 3 and 00_scope.md section 4: in every legal configuration, whichever parser it selects, `5` and
`7` are accepted with their values and `abc` is not (the spec's own decisions D3, D4; the selector is log entry 6). -/
def Obligations.LegalConfigurationsParseTheExamples : Prop :=
  ∀ c : Config, c.legal →
    parseArg c ['5'] = some 5 ∧ parseArg c ['7'] = some 7 ∧ parseArg c ['a', 'b', 'c'] = none

/-! ### Function units applied directly (the field `unitOut` that receives their value is the model's own, log entry 4) -/

/-- 40_bitutils.md, toBits: on a positive width the unit delivers that many bits, the most significant first, and bits of
the value beyond the width do not matter. -/
def Obligations.ToBitsDeliversMostSignificantFirst : Prop :=
  ∀ (value width : Nat) (s : State), 1 ≤ width →
    (∃ l : List Bit,
      exec (.toBits value width) s = .next { s with unitOut := some (.bits l) } ∧
      l.length = width ∧ ∀ i, i < width → l[i]? = some (value.testBit (width - 1 - i))) ∧
    exec (.toBits value width) s = exec (.toBits (value % 2 ^ width) width) s

/-- 40_bitutils.md, fromBits: on every list the unit delivers the number whose digits the list spells, the first element
the most significant; it lies below 2 to the length. -/
def Obligations.FromBitsDeliversTheWeightedSum : Prop :=
  ∀ (l : List Bit) (s : State), ∃ n : Nat,
    exec (.fromBits l) s = .next { s with unitOut := some (.nat n) } ∧
    n = ∑ i : Fin l.length, (l[i]).toNat * 2 ^ (l.length - 1 - i.val) ∧
    n < 2 ^ l.length

/-- 40_bitutils.md, Laws: the two conversions undo each other. The second direction is the spec's own inference. -/
def Obligations.BitConversionsAreInverse : Prop :=
  (∀ v w : Nat, v < 2 ^ w → fromBits (toBits v w) = v) ∧
  (∀ l : List Bit, toBits (fromBits l) l.length = l)

/-- 41_shift_hasher.md: on every natural the ShiftHasher delivers the packed odd-numbered bits first and the packed
even-numbered bits second, unreduced. The closed form is the spec's own inference from its loops. -/
def Obligations.ShiftHasherSplitsOddAndEvenBits : Prop :=
  ∀ (n : Nat) (s : State), ∃ p q : Nat,
    exec (.shiftHash n) s = .next { s with unitOut := some (.pair ⟨p, q⟩) } ∧
    (∀ k, p.testBit k = n.testBit (2 * k + 1)) ∧ (∀ k, q.testBit k = n.testBit (2 * k))

/-- 41_shift_hasher.md: the outputs have half the input's bits (the spec's own inference); they are not bounded by 31. -/
def Obligations.ShiftHasherHalvesTheWidth : Prop :=
  (∀ n k : Nat, n < 2 ^ (2 * k) → (shiftHash n).position1 < 2 ^ k ∧ (shiftHash n).position2 < 2 ^ k) ∧
  (∃ n : Nat, 32 ≤ (shiftHash n).position2)

/-- R75: on every natural the MatrixHasher delivers the two GF(2) products, row 0 in bit 4; only the low 64 bits of the
value count; 0 gives (0, 0); a negative value is refused. -/
def Obligations.MatrixHasherMultipliesOverGF2 : Prop :=
  (∀ (n : Nat) (s : State),
    (∃ p q : Nat,
      exec (.matrixHash n) s = .next { s with unitOut := some (.pair ⟨p, q⟩) } ∧
      p < 32 ∧ q < 32 ∧
      (∀ i, i < 5 → p.testBit (4 - i) =
        decide ((List.range 64).countP (fun j => entry s.config.h1 i j && n.testBit (63 - j)) % 2 = 1)) ∧
      (∀ i, i < 5 → q.testBit (4 - i) =
        decide ((List.range 64).countP (fun j => entry s.config.h2 i j && n.testBit (63 - j)) % 2 = 1))) ∧
    exec (.matrixHash n) s = exec (.matrixHash ((n % 2 ^ 64 : Nat) : Int)) s) ∧
  (∀ s : State, exec (.matrixHash 0) s = .next { s with unitOut := some (.pair ⟨0, 0⟩) }) ∧
  (∀ (v : Int) (s : State), v < 0 → exec (.matrixHash v) s = .refused .hashNegValue)

/-- R77: for all inputs both positions lie in 0..31, and the reduction mod 32 leaves them unchanged. -/
def Obligations.MatrixPositionsNeedNoReduction : Prop :=
  ∀ (v : Int) (s s' : State), exec (.matrixHash v) s = .next s' →
    ∃ p q : Nat, s'.unitOut = some (.pair ⟨p, q⟩) ∧ p ≤ 31 ∧ q ≤ 31 ∧ p % 32 = p ∧ q % 32 = q

/-- 42_matrix_hasher.md: the product is linear over GF(2), for every matrix (the spec marks it as its inference). -/
def Obligations.MatrixProductIsLinear : Prop :=
  ∀ (h : BitMatrix) (a b : Nat),
    matmul h (toBits (a ^^^ b) 64) = matmul h (toBits a 64) ^^^ matmul h (toBits b 64)

/-- 43_bloom_filter.md, mask: the unit delivers the word whose set bits are the positions reduced mod 32; for one or more
positions it has from one to as many set bits as there are positions. -/
def Obligations.MaskSetsExactlyTheReducedPositions : Prop :=
  ∀ (ps : List Nat) (s : State), ∃ m : Word32,
    exec (.mask (ps.map (fun p : Nat => (p : Int)))) s = .next { s with unitOut := some (.word m) } ∧
    (∀ i, i < 32 → (m.getLsbD i = true ↔ ∃ p ∈ ps, p % 32 = i)) ∧
    (List.range 32).countP (fun i => m.getLsbD i) ≤ ps.length ∧
    (ps ≠ [] → 1 ≤ (List.range 32).countP (fun i => m.getLsbD i))

/-- 43_bloom_filter.md, dedup: the unit delivers each position once, in the order of first occurrence, by raw equality
(the spec's own decisions D9 and D28). -/
def Obligations.DedupKeepsFirstOccurrences : Prop :=
  ∀ (ps : List Nat) (s : State), ∃ r : List Nat,
    exec (.dedup ps) s = .next { s with unitOut := some (.positions r) } ∧
    r.Nodup ∧ (∀ p, p ∈ r ↔ p ∈ ps) ∧
    (∀ p q, p ∈ ps → q ∈ ps → (r.idxOf p < r.idxOf q ↔ ps.idxOf p < ps.idxOf q))

/-- R84: `insert` delivers the filter with every position's reduced bit set beside the old ones, and with exactly the
positions given, deduplicated, as `newlySet`; a negative position is refused. -/
def Obligations.InsertSetsBitsAndNewlySet : Prop :=
  (∀ (f : Filter) (ps : List Nat) (s : State), ∃ t : Word32,
    exec (.insert f (ps.map (fun p : Nat => (p : Int)))) s =
      .next { s with unitOut := some (.filter { bits := t, newlySet := dedup ps }) } ∧
    (∀ i, i < 32 → (t.getLsbD i = true ↔ f.bits.getLsbD i = true ∨ ∃ p ∈ ps, p % 32 = i)) ∧
    (∀ p, p ∈ dedup ps ↔ p ∈ ps)) ∧
  (∀ (f : Filter) (ps : List Int) (s : State), (∃ p ∈ ps, p < 0) →
    exec (.insert f ps) s = .refused .maskNegPosition)

/-- 43_bloom_filter.md, has: on two naturals the unit delivers true exactly when both reduced bits are set. -/
def Obligations.HasTestsBothReducedBits : Prop :=
  ∀ (f : Filter) (p q : Nat) (s : State), ∃ b : Bool,
    exec (.has f [(p : Int), (q : Int)]) s = .next { s with unitOut := some (.bool b) } ∧
    (b = true ↔ f.bits.getLsbD (p % 32) = true ∧ f.bits.getLsbD (q % 32) = true)

/-- R86: `refresh` delivers the filter with the same bits and an empty `newlySet`. -/
def Obligations.RefreshKeepsBitsAndClearsNewlySet : Prop :=
  ∀ (f : Filter) (s : State),
    exec (.refresh f) s = .next { s with unitOut := some (.filter { bits := f.bits, newlySet := [] }) }

/-- 60_exceptions.md section 3 (the spec's own decisions D19, D20): each use outside a unit's contract is refused by name.
A negative position among two is the `has` case; with another number of positions its arity is refused (log entry 18). -/
def Obligations.UnitsRefuseUsesOutsideTheirContract : Prop :=
  ∀ s : State,
    (∀ v, exec (.toBits v 0) s = .refused .toBitsWidth0) ∧
    (∀ v : Int, v < 0 → exec (.shiftHash v) s = .refused .hashNegValue ∧
      exec (.matrixHash v) s = .refused .hashNegValue) ∧
    (∀ ps : List Int, (∃ p ∈ ps, p < 0) → exec (.mask ps) s = .refused .maskNegPosition ∧
      (∀ f, exec (.insert f ps) s = .refused .maskNegPosition) ∧
      (∀ f, ps.length = 2 → exec (.has f ps) s = .refused .maskNegPosition)) ∧
    (∀ f (ps : List Int), ps.length ≠ 2 → exec (.has f ps) s = .refused .hasArity)

/-- Frame and completion of all nine units (40_bitutils.md to 43_bloom_filter.md; 60_exceptions.md section 3): a unit
answers a next state exactly within its contract, and then only the model's own field `unitOut` (log entry 4) changes. -/
def Obligations.UnitsCompleteWithinContractAndWriteNothing : Prop :=
  ∀ (i : Instr) (s : State), i.isLine = false →
    (WellFormed i → ∃ v, exec i s = .next { s with unitOut := some v }) ∧
    (¬ WellFormed i → ∃ r, exec i s = .refused r)

/-- R87: no sequence of `insert` calls clears a bit, and `refresh` changes none. -/
def Obligations.InsertionsNeverClearABit : Prop :=
  (∀ (f : Filter) (calls : List (List Nat)),
    f.bits &&& ~~~ (calls.foldl Machine.insert f).bits = 0) ∧
  (∀ f : Filter, (Machine.refresh f).bits = f.bits)

/-- 43_bloom_filter.md, Laws: a pair just inserted is found, by its raw and by its reduced positions, and stays found after
any later insertions (in part the spec's own inference). -/
def Obligations.InsertedPairsAreFound : Prop :=
  ∀ (f : Filter) (p q : Nat) (later : List (List Nat)),
    Machine.has (later.foldl Machine.insert (Machine.insert f [p, q])) [p % 32, q % 32] = true ∧
    Machine.has (later.foldl Machine.insert (Machine.insert f [p, q])) [p, q] = true

/-! ### Commands -/

/-- R94: `usage`, whatever follows it on its line, emits the help text, completes with OK and writes no tracker state. -/
def Obligations.UsageEmitsTheHelpText : Prop :=
  (∀ s : State, exec .usage s =
    .next { s with output := s.output ++ [.usage s.config.usageText], statuses := s.statuses ++ [.ok] }) ∧
  decode "usage".toList = .usage ∧ ∀ rest : Line, decode ("usage".toList ++ ' ' :: rest) = .usage

/-- R97: an Invalid command emits its reason, completes with CMD_ERR and writes no state; every line whose verb is not in the
table is one, with the reason `Invalid command`. -/
def Obligations.InvalidReportsAndWritesNothing : Prop :=
  (∀ (reason : Line) (s : State), exec (.invalid reason) s =
    .next { s with output := s.output ++ [.errCommand reason], statuses := s.statuses ++ [.cmdErr] }) ∧
  (∀ (line : Line) (s : State),
    line.takeWhile (fun c => c != ' ') ∉ ["usage".toList, "log".toList, "query".toList] →
    exec (decode line) s = .next { s with
      output := s.output ++ [.errCommand "Invalid command".toList]
      statuses := s.statuses ++ [.cmdErr] })

/-- R93: where the argument does not parse, `log` and `query` emit exactly one event naming it, write no state and complete
with ARG_ERR. -/
def Obligations.UnparsedArgumentIsRecoverable : Prop :=
  ∀ (arg : Line) (s : State), parseArg s.config arg = none →
    exec (.log arg) s =
      .next { s with output := s.output ++ [.errArgument arg], statuses := s.statuses ++ [.argErr] } ∧
    exec (.query arg) s =
      .next { s with output := s.output ++ [.errArgument arg], statuses := s.statuses ++ [.argErr] }

/-- 44_commands.md section 1 and 60_exceptions.md section 3 (the spec's own decisions D5, D17, D27; that the mark stands in
a next state is log entry 9): a negative argument sets the fault mark with the argument string, and nothing else. -/
def Obligations.NegativeArgumentSetsOnlyTheFaultMark : Prop :=
  ∀ (arg : Line) (v : Int) (s : State), parseArg s.config arg = some v → v < 0 →
    exec (.log arg) s = .next { s with fault := some (.negArg arg) } ∧
    exec (.query arg) s = .next { s with fault := some (.negArg arg) }

/-- 44_commands.md, log, with HASH_SEL = SHIFT: the packed odd and even bits of the argument are the raw positions; their
reduced bits are set, `newlySet` and `lastHash` hold the raw pair, one EV_HASH is emitted (the spec's own decisions D12,
D24). -/
def Obligations.LogUnderShiftRecordsOddAndEvenBits : Prop :=
  ∀ (arg : Line) (n : Nat) (s : State),
    s.config.hashSel = .shift → parseArg s.config arg = some (n : Int) →
    ∃ (p q : Nat) (t : Word32),
      (∀ k, p.testBit k = n.testBit (2 * k + 1)) ∧ (∀ k, q.testBit k = n.testBit (2 * k)) ∧
      (∀ i, i < 32 → (t.getLsbD i = true ↔
        s.tracker.filter.bits.getLsbD i = true ∨ p % 32 = i ∨ q % 32 = i)) ∧
      exec (.log arg) s = .next { s with
        tracker :=
          { filter := { bits := t, newlySet := if p = q then [p] else [p, q] }
            lastHash := some ⟨p, q⟩ }
        output := s.output ++ [.hash p q]
        statuses := s.statuses ++ [.ok] }

/-- 44_commands.md, log, with HASH_SEL = MATRIX (the spec's own decision D6): the two products are the positions, below 32,
and select their register bits as they are. -/
def Obligations.LogUnderMatrixRecordsTheProducts : Prop :=
  ∀ (arg : Line) (n : Nat) (s : State),
    s.config.hashSel = .matrix → parseArg s.config arg = some (n : Int) →
    ∃ (p q : Nat) (t : Word32),
      p = matmul s.config.h1 (toBits n 64) ∧ q = matmul s.config.h2 (toBits n 64) ∧ p < 32 ∧ q < 32 ∧
      (∀ i, i < 32 → (t.getLsbD i = true ↔ s.tracker.filter.bits.getLsbD i = true ∨ p = i ∨ q = i)) ∧
      exec (.log arg) s = .next { s with
        tracker :=
          { filter := { bits := t, newlySet := if p = q then [p] else [p, q] }
            lastHash := some ⟨p, q⟩ }
        output := s.output ++ [.hash p q]
        statuses := s.statuses ++ [.ok] }

/-- 44_commands.md, query: the positions are emitted, then the verdict, possibly-present exactly when both reduced bits are
set; `bits` is unchanged, `newlySet` cleared, `lastHash` written only as QUERY_SETS_LAST_HASH says (the spec's own decisions
D8, D24). -/
def Obligations.QueryReportsMembershipAndRefreshes : Prop :=
  ∀ (arg : Line) (n : Nat) (s : State), parseArg s.config arg = some (n : Int) →
    ∃ (p q : Nat) (v : Verdict),
      Machine.hash s.config n = ⟨p, q⟩ ∧
      (v = .possiblyPresent ↔
        s.tracker.filter.bits.getLsbD (p % 32) = true ∧ s.tracker.filter.bits.getLsbD (q % 32) = true) ∧
      exec (.query arg) s = .next { s with
        tracker :=
          { filter := { bits := s.tracker.filter.bits, newlySet := [] }
            lastHash := if s.config.querySetsLastHash = true then some ⟨p, q⟩ else s.tracker.lastHash }
        output := s.output ++ [.hash p q, .verdict v]
        statuses := s.statuses ++ [.ok] }

/-- 44_commands.md sections 1 and 2: `log` and `query` both emit the positions that the configured hasher gives, the same for
both. That `log` emits an event at all, and so that its first new event is EV_HASH, is the spec's own decision D12 (log entry
15); that HASH_SEL may select the MatrixHasher is D6. -/
def Obligations.BothCommandsUseTheConfiguredHasher : Prop :=
  ∀ (arg : Line) (n : Nat) (s : State), parseArg s.config arg = some (n : Int) →
    ∃ (p q : Nat) (sl sq : State),
      (s.config.hashSel = .shift → shiftHash n = ⟨p, q⟩) ∧
      (s.config.hashSel = .matrix → matrixHash s.config n = ⟨p, q⟩) ∧
      exec (.log arg) s = .next sl ∧ sl.output[s.output.length]? = some (.hash p q) ∧
      exec (.query arg) s = .next sq ∧ sq.output[s.output.length]? = some (.hash p q)

/-- 41_shift_hasher.md and 44_commands.md section 3 (the spec's own inference): under the ShiftHasher two arguments equal in
their low ten bits set the same register bits. -/
def Obligations.LowTenBitsDecideTheBitsSet : Prop :=
  ∀ (a b : Line) (n m : Nat) (s : State),
    s.config.hashSel = .shift → parseArg s.config a = some (n : Int) → parseArg s.config b = some (m : Int) →
    n % 1024 = m % 1024 →
    ∃ sa sb, exec (.log a) s = .next sa ∧ exec (.log b) s = .next sb ∧
      sa.tracker.filter.bits = sb.tracker.filter.bits

/-- 90_conflicts.md C3 and 43_bloom_filter.md, has: on a filter with no bit set every query reports definitely-absent. -/
def Obligations.EmptyFilterReportsAbsent : Prop :=
  ∀ (arg : Line) (n : Nat) (s : State),
    s.tracker.filter.bits = 0 → parseArg s.config arg = some (n : Int) →
    ∃ s', exec (.query arg) s = .next s' ∧ s'.output.getLast? = some (.verdict .definitelyAbsent)

/-- 20_memory.md section 3 (the spec's own inference): a second `log` or `query` of the same argument straight after the
first leaves the tracker state as the first left it. -/
def Obligations.RepeatedCommandsAreIdempotent : Prop :=
  ∀ (arg : Line) (s s1 : State),
    (exec (.log arg) s = .next s1 → ∃ s2, exec (.log arg) s1 = .next s2 ∧ s2.tracker = s1.tracker) ∧
    (exec (.query arg) s = .next s1 → ∃ s2, exec (.query arg) s1 = .next s2 ∧ s2.tracker = s1.tracker)

/-- Frame of the four commands (44_commands.md sections 2 and 3): none writes the configuration, the waiting lines or the
units' output, and none but a `log` or `query` with a negative argument writes the fault mark. -/
def Obligations.CommandsWriteOnlyTrackerAndDiagnostics : Prop :=
  ∀ (i : Instr) (s s' : State), i.isLine = true → exec i s = .next s' →
    s'.config = s.config ∧ s'.input = s.input ∧ s'.unitOut = s.unitOut ∧
    (s'.fault = s.fault ∨
      ∃ arg v, (i = .log arg ∨ i = .query arg) ∧ parseArg s.config arg = some v ∧ v < 0 ∧
        s' = { s with fault := some (.negArg arg) })

/-- 44_commands.md section 3 (the spec's own inference): only a `log` with an accepted natural argument changes `bits`. -/
def Obligations.OnlyAcceptedLogChangesBits : Prop :=
  ∀ (i : Instr) (s s' : State), exec i s = .next s' → s'.tracker.filter.bits ≠ s.tracker.filter.bits →
    ∃ (arg : Line) (n : Nat), i = .log arg ∧ parseArg s.config arg = some (n : Int)

/-- 10_state.md section 1: only an accepted `log` or `query` writes `newlySet`, and only an accepted `log`, or an accepted
`query` where QUERY_SETS_LAST_HASH holds, writes `lastHash` (the spec's own decision D8). -/
def Obligations.OnlyAcceptedCommandsWriteDisplayState : Prop :=
  ∀ (i : Instr) (s s' : State), exec i s = .next s' →
    (s'.tracker.filter.newlySet ≠ s.tracker.filter.newlySet →
      ∃ (arg : Line) (n : Nat), (i = .log arg ∨ i = .query arg) ∧ parseArg s.config arg = some (n : Int)) ∧
    (s'.tracker.lastHash ≠ s.tracker.lastHash →
      ∃ (arg : Line) (n : Nat), parseArg s.config arg = some (n : Int) ∧
        (i = .log arg ∨ (i = .query arg ∧ s.config.querySetsLastHash = true)))

/-! ### The step and runs -/

/-- 44_commands.md section 1: an unfaulted block takes the next line and does what its decoded command does; a line placed by
the host's word is the next one (log entries 2 and 11). -/
def Obligations.StepRunsTheDecodedLine : Prop :=
  (∀ (s : State) (line : Line) (rest : List Line), s.fault = none → s.input = line :: rest →
    step s = exec (decode line) { s with input := rest }) ∧
  (∀ (s : State) (nbits w : Nat) (i : Instr), s.fault = none → decodeTableWord nbits w = some i →
    step (s.withFetchWord nbits w) = exec i s)

/-- 60_exceptions.md section 3 (the spec's own decision D17): from a faulted state no step is taken, so no run leaves it. -/
def Obligations.FaultedBlockTakesNoStep : Prop :=
  ∀ (s : State) (f : Fault), s.fault = some f → step s = .fault f ∧ ∀ n, run (n + 1) s = .fault f

/-- 70_reset_and_hazards.md section 1 and 60_exceptions.md section 4: with no line waiting the block holds its state. That
a step then answers the same state is the model's choice (log entry 10). -/
def Obligations.IdleBlockHoldsItsState : Prop :=
  ∀ s : State, s.fault = none → s.input = [] → ∀ n, run n s = .next s

/-- R98: after every command, whatever its outcome, the lines left are those after it, in their order. -/
def Obligations.EveryCommandTakesExactlyItsLine : Prop :=
  ∀ (s s' : State) (line : Line) (rest : List Line),
    s.input = line :: rest → step s = .next s' → s'.input = rest

/-- 60_exceptions.md section 1 (codes and order of checks: the spec's own decision D16 and inference): an unfaulted block
with a line waiting always answers a next state; CMD_ERR is recorded exactly for an unknown verb, ARG_ERR exactly for an
argument that does not parse, the fault mark exactly for a negative one, OK otherwise. -/
def Obligations.EveryLineEndsInOneWay : Prop :=
  ∀ (s : State) (line : Line) (rest : List Line), s.fault = none → s.input = line :: rest →
    ∃ s', step s = .next s' ∧
      ((decode line = .usage ∧ s'.fault = none ∧ s'.statuses = s.statuses ++ [.ok]) ∨
       (decode line = .invalid invalidReason ∧ s'.fault = none ∧ s'.statuses = s.statuses ++ [.cmdErr]) ∨
       (∃ arg, (decode line = .log arg ∨ decode line = .query arg) ∧
         ((parseArg s.config arg = none ∧ s'.fault = none ∧ s'.statuses = s.statuses ++ [.argErr]) ∨
          (∃ v, parseArg s.config arg = some v ∧ v < 0 ∧ s'.fault = some (.negArg arg) ∧
            s'.statuses = s.statuses) ∨
          (∃ v, parseArg s.config arg = some v ∧ 0 ≤ v ∧ s'.fault = none ∧
            s'.statuses = s.statuses ++ [.ok]))))

/-- 60_exceptions.md section 1: a command that completes with an error leaves the whole tracker state unchanged and adds
exactly one event. -/
def Obligations.ErrorsLeaveTheTrackerUnchanged : Prop :=
  ∀ (s s' : State) (st : Status), step s = .next s' → s'.statuses = s.statuses ++ [st] → st ≠ .ok →
    s'.tracker = s.tracker ∧ s'.fault = none ∧ ∃ e, s'.output = s.output ++ [e]

/-- R23: along every run from every state, no bit of `bits` is lost. -/
def Obligations.BitsAreNeverClearedAlongARun : Prop :=
  ∀ (n : Nat) (s s' : State), run n s = .next s' →
    s.tracker.filter.bits &&& ~~~ s'.tracker.filter.bits = 0

/-- R28: no command writes a configuration value, so it is the same all along a run. -/
def Obligations.ConfigurationIsNeverWritten : Prop :=
  (∀ (i : Instr) (s s' : State), exec i s = .next s' → s'.config = s.config) ∧
  (∀ (n : Nat) (s s' : State), run n s = .next s' → s'.config = s.config)

/-- 10_state.md section 3: along every run the diagnostic output only grows at its end, so the text already surfaced stays;
the statuses, the model's record (log entry 13), do too. -/
def Obligations.DiagnosticOutputOnlyGrows : Prop :=
  ∀ (n : Nat) (s s' : State), run n s = .next s' →
    s.output <+: s'.output ∧ s.combinedText <+: s'.combinedText ∧ s.statuses <+: s'.statuses

/-- R119: the verb `reset`, with or without a rest, is an Invalid command that writes no state, and no command clears a bit
of the filter. -/
def Obligations.ResetVerbClearsNothing : Prop :=
  (∀ (s : State) (line : Line) (lines : List Line), s.fault = none →
    (line = "reset".toList ∨ ∃ rest, line = "reset ".toList ++ rest) → s.input = line :: lines →
    step s = .next { s with
      input := lines
      output := s.output ++ [.errCommand "Invalid command".toList]
      statuses := s.statuses ++ [.cmdErr] }) ∧
  (∀ (i : Instr) (s s' : State) (k : Nat), exec i s = .next s' →
    s.tracker.filter.bits.getLsbD k = true → s'.tracker.filter.bits.getLsbD k = true)

/-- 10_state.md section 2 (the spec's own inference): `bits`, the verdicts and all other events do not depend on the display
state: two states that differ only in `newlySet` and `lastHash` (and in what has been output) step alike. -/
def Obligations.DisplayStateIsNeverRead : Prop :=
  ∀ s t s' : State,
    t.tracker.filter.bits = s.tracker.filter.bits → t.config = s.config → t.input = s.input → t.fault = s.fault →
    step s = .next s' →
    ∃ t' events, step t = .next t' ∧ t'.tracker.filter.bits = s'.tracker.filter.bits ∧ t'.fault = s'.fault ∧
      s'.output = s.output ++ events ∧ t'.output = t.output ++ events

/-- Every step keeps the display invariant: `newlySet` is empty or is the deduplicated pair that `lastHash` records, and
every bit it selects is set (10_state.md section 1; 43_bloom_filter.md). With QUERY_SETS_LAST_HASH false as with true. -/
def Obligations.DisplayInvariantIsKept : Prop :=
  ∀ s s' : State, DisplayInv s.tracker → step s = .next s' → DisplayInv s'.tracker

/-- The display invariant holds after every reset. -/
def Obligations.DisplayInvariantHoldsAtReset : Prop :=
  (∀ c : Config, DisplayInv (State.resetWith c).tracker) ∧ DisplayInv State.reset.tracker

/-- 10_state.md section 3 (readout): where the display invariant holds, every cell shown as just flipped is shown on. -/
def Obligations.JustFlippedCellsAreOn : Prop :=
  ∀ (s : State) (i : Fin 32), DisplayInv s.tracker →
    s.readout.cellJustFlipped i = true → s.readout.cellOn i = true

/-- 44_commands.md section 3 (the spec's own inference): a value once logged is reported possibly-present by every later
query of it, whatever commands came between. -/
def Obligations.LoggedValuesStayPresent : Prop :=
  ∀ (a b : Line) (n k : Nat) (s s1 s2 : State),
    parseArg s.config a = some (n : Int) → exec (.log a) s = .next s1 → run k s1 = .next s2 →
    parseArg s2.config b = some (n : Int) →
    ∃ s3, exec (.query b) s2 = .next s3 ∧ s3.output.getLast? = some (.verdict .possiblyPresent)

/-- 70_reset_and_hazards.md section 4: from every unfaulted state, waiting lines none of which carries a negative argument
are all executed, the run ends well and records one status for each. -/
def Obligations.RunsWithoutNegativeArgumentsEndWell : Prop :=
  ∀ s : State, s.fault = none →
    (∀ line ∈ s.input, ∀ arg v, (decode line = .log arg ∨ decode line = .query arg) →
      parseArg s.config arg = some v → 0 ≤ v) →
    ∃ s', run s.input.length s = .next s' ∧ EndedWell s' ∧
      s'.statuses.length = s.statuses.length + s.input.length

/-- 44_commands.md section 3 and 70_reset_and_hazards.md section 4: after the waiting lines have run, exactly the bits set
before and the reduced positions of the values logged are set. -/
def Obligations.BitsAreExactlyThoseLogged : Prop :=
  ∀ (s s' : State) (i : Nat), i < 32 → run s.input.length s = .next s' → s'.fault = none →
    (s'.tracker.filter.bits.getLsbD i = true ↔
      s.tracker.filter.bits.getLsbD i = true ∨
        ∃ (line arg : Line) (n : Nat), line ∈ s.input ∧ decode line = .log arg ∧
          parseArg s.config arg = some (n : Int) ∧
          ((Machine.hash s.config n).position1 % 32 = i ∨ (Machine.hash s.config n).position2 % 32 = i))

/-! ### Reset -/

/-- 10_state.md section 4: after a reset the filter is empty, no hash is recorded, no fault is marked, and the configuration
is the one given; the machine's own reset has the defaults SHIFT and false. That `lastHash` is none is the spec's own decision
D13, that the fault mark is none D17, the default SHIFT D6 and the default false D8 (log entry 15). -/
def Obligations.ResetGivesTheStatedValues : Prop :=
  (∀ c : Config,
    (State.resetWith c).tracker = { filter := { bits := 0x00000000, newlySet := [] }, lastHash := none } ∧
    (State.resetWith c).fault = none ∧ (State.resetWith c).config = c) ∧
  State.reset = State.resetWith Config.atReset ∧
  State.reset.config.hashSel = .shift ∧ State.reset.config.querySetsLastHash = false

/-- 00_scope.md section 4 (in part the spec's own inference): the configuration after reset is legal, whatever its OPEN
values are (log entries 5 and 7). -/
def Obligations.ResetConfigurationIsLegal : Prop :=
  State.reset.config.legal ∧ State.reset.config.argParse = .strict
end

