-- ==== Sys2Proof/Laws/Filter.lean ====
section
/-!
SUPPORT. The filter operations: the bits of a mask, what dedup keeps, what has tests (spec/43_bloom_filter.md).
-/
namespace Sys2Proof.Machine

theorem positionBit_getLsbD (p i : Nat) : (positionBit p).getLsbD i = decide (p % 32 = i) := by
  have hp : p % 32 < 32 := Nat.mod_lt _ (by decide)
  by_cases h : p % 32 = i
  · subst h
    simp [positionBit, hp]
  · rw [decide_eq_false h]
    simp only [positionBit, BitVec.getLsbD_shiftLeft, BitVec.getLsbD_one]
    by_cases h2 : i < p % 32
    · simp [h2]
    · have : ¬ i - p % 32 = 0 := by omega
      simp [this]

theorem foldl_positionBit_getLsbD (ps : List Nat) (m : Word32) (i : Nat) :
    (ps.foldl (fun m p => m ||| positionBit p) m).getLsbD i =
      (m.getLsbD i || ps.any (fun p => decide (p % 32 = i))) := by
  induction ps generalizing m with
  | nil => simp
  | cons p ps ih => rw [List.foldl_cons, ih, BitVec.getLsbD_or, positionBit_getLsbD, List.any_cons, Bool.or_assoc]

/-- Bit `i` of a mask is set exactly when some position reduces to `i` (R72, R82). -/
theorem mask_getLsbD (ps : List Nat) (i : Nat) :
    (mask ps).getLsbD i = ps.any (fun p => decide (p % 32 = i)) := by
  simp [mask, foldl_positionBit_getLsbD]

/-- The test of `has`: every position's reduced bit is set (R85). -/
theorem has_eq_true {f : Filter} {ps : List Nat} :
    has f ps = true ↔ ∀ p ∈ ps, f.bits.getLsbD (p % 32) = true := by
  rw [has, beq_iff_eq]
  constructor
  · intro h p hp
    have e := congrArg (fun m : Word32 => m.getLsbD (p % 32)) h
    simp only [BitVec.getLsbD_and, mask_getLsbD] at e
    have : (ps.any fun q => decide (q % 32 = p % 32)) = true := List.any_eq_true.mpr ⟨p, hp, by simp⟩
    simpa [this] using e
  · intro h
    apply BitVec.eq_of_getLsbD_eq
    intro i _
    rw [BitVec.getLsbD_and, mask_getLsbD]
    cases hm : ps.any (fun p => decide (p % 32 = i)) with
    | false => simp
    | true =>
      obtain ⟨p, hp, he⟩ := List.any_eq_true.mp hm
      rw [← of_decide_eq_true he, h p hp]
      rfl

theorem dedup_append_singleton (ps : List Nat) (p : Nat) :
    dedup (ps ++ [p]) = if p ∈ dedup ps then dedup ps else dedup ps ++ [p] := by
  unfold dedup
  rw [List.foldl_append]
  rfl

theorem mem_dedup {ps : List Nat} {p : Nat} : p ∈ dedup ps ↔ p ∈ ps := by
  induction ps using List.reverseRecOn with
  | nil => simp [dedup]
  | append_singleton ps q ih =>
    rw [dedup_append_singleton]
    split
    · next h =>
      constructor
      · intro hp; simp [ih.mp hp]
      · intro hp
        rcases List.mem_append.mp hp with hp | hp
        · exact ih.mpr hp
        · rw [List.mem_singleton.mp hp]; exact h
    · simp [ih]

/-- The deduplicated pair that a command writes to `newlySet` (R83). -/
theorem dedup_pair (p q : Nat) : dedup [p, q] = if p = q then [p] else [p, q] := by
  by_cases h : p = q
  · subst h; simp [dedup]
  · simp [dedup, h, Ne.symm h]

end Sys2Proof.Machine
end

