-- ==== Sys2Proof/Laws/Hashers.lean ====
section
/-!
SUPPORT. The conversions and the hashers, bit by bit (spec/40_bitutils.md to spec/42_matrix_hasher.md).
-/
namespace Sys2Proof.Machine

theorem toBits_length (v w : Nat) : (toBits v w).length = w := by
  simp [toBits]

theorem toBits_getElem (v w i : Nat) (h : i < (toBits v w).length) :
    (toBits v w)[i] = v.testBit (w - 1 - i) := by
  simp only [toBits, List.getElem_map, List.getElem_range, Nat.testBit, Nat.and_comm 1]
  rw [Nat.and_one_is_mod]
  rcases Nat.mod_two_eq_zero_or_one (v >>> (w - 1 - i)) with h | h <;> simp [h]

theorem fromBits_append_singleton (s : List Bit) (b : Bit) :
    fromBits (s ++ [b]) = 2 * fromBits s + b.toNat := by
  have h : ∀ n : Nat, (n <<< 1) ||| b.toNat = 2 * n + b.toNat := by
    intro n
    rw [Nat.shiftLeft_eq, Nat.mul_comm, pow_one]
    exact (Nat.two_pow_add_eq_or_of_lt (i := 1) (by cases b <;> decide) n).symm
  simp [fromBits, h]

theorem fromBits_lt (s : List Bit) : fromBits s < 2 ^ s.length := by
  induction s using List.reverseRecOn with
  | nil => simp [fromBits]
  | append_singleton s b ih =>
    rw [fromBits_append_singleton, List.length_append, List.length_singleton, pow_succ]
    cases b <;> simp <;> omega

/-- Bit `k` of the value is the element `k` places from the right (R39, R64). -/
theorem fromBits_testBit (s : List Bit) (k : Nat) (h : k < s.length) :
    (fromBits s).testBit k = s[s.length - 1 - k] := by
  induction s using List.reverseRecOn generalizing k with
  | nil => simp at h
  | append_singleton s b ih =>
    rw [fromBits_append_singleton]
    cases k with
    | zero => cases b <;> simp [Nat.testBit_zero]
    | succ k =>
      rw [List.length_append, List.length_singleton] at h
      have hk : k < s.length := by omega
      rw [Nat.testBit_succ]
      have e : (2 * fromBits s + b.toNat) / 2 = fromBits s := by cases b <;> simp; omega
      rw [e, ih k hk, List.getElem_append_left (by simp; omega)]
      congr 1
      simp
      omega

/-- The loop of R66 puts bit `2j` of `x` at position `ctr + j`, beside what the accumulator holds. -/
theorem shiftLoop_testBit (fuel x ctr acc k : Nat) (hx : x ≤ fuel) :
    (shiftLoop fuel x ctr acc).testBit k =
      (acc.testBit k || (decide (ctr ≤ k) && x.testBit (2 * (k - ctr)))) := by
  induction fuel generalizing x ctr acc with
  | zero =>
    obtain rfl : x = 0 := by omega
    simp [shiftLoop]
  | succ fuel ih =>
    unfold shiftLoop
    split
    · next h => subst h; simp
    · next h =>
      have hs : x >>> 2 ≤ fuel := by
        rw [Nat.shiftRight_eq_div_pow]
        omega
      rw [ih _ _ _ hs, Nat.testBit_or, Nat.testBit_shiftLeft, Nat.testBit_shiftRight, Nat.and_one_is_mod,
        Bool.or_assoc]
      congr 1
      rcases Nat.lt_trichotomy k ctr with hk | rfl | hk
      · simp [Nat.not_le.mpr hk, show ¬ ctr + 1 ≤ k by omega]
      · simp [Nat.testBit_zero]
      · obtain ⟨j, rfl⟩ : ∃ j, k = ctr + 1 + j := ⟨k - ctr - 1, by omega⟩
        have e1 : ctr + 1 + j - ctr = j + 1 := by omega
        have e2 : ctr + 1 + j - (ctr + 1) = j := by omega
        rw [e1, e2]
        have e3 : (x % 2).testBit (j + 1) = false := by
          rw [Nat.testBit_succ]
          have : x % 2 / 2 = 0 := by omega
          simp [this]
        have e4 : 2 * (j + 1) = 2 + 2 * j := by ring
        simp [e3, e4, show ctr ≤ ctr + 1 + j by omega]

theorem packAlternate_testBit (x k : Nat) : (packAlternate x).testBit k = x.testBit (2 * k) := by
  simp [packAlternate, shiftLoop_testBit x x 0 0 k le_rfl]

/-- Both positions of the ShiftHasher, bit by bit (R67, R68). -/
theorem shiftHash_position1_testBit (v k : Nat) :
    (shiftHash v).position1.testBit k = v.testBit (2 * k + 1) := by
  rw [shiftHash, packAlternate_testBit, Nat.testBit_shiftRight, Nat.add_comm]

theorem shiftHash_position2_testBit (v k : Nat) :
    (shiftHash v).position2.testBit k = v.testBit (2 * k) := by
  rw [shiftHash, packAlternate_testBit]

theorem matmul_lt (h : BitMatrix) (v : List Bit) : matmul h v < 32 :=
  lt_of_lt_of_eq (fromBits_lt _) (by simp [matrixRows])

end Sys2Proof.Machine
end

