-- ==== Sys2Proof/Laws/State.lean ====
section
/-!
SUPPORT. One lemma per field per named update of the state, so that no later proof unfolds a record update.
-/
namespace Sys2Proof.Machine

variable (s : State)

@[simp] theorem State.emit_tracker (es : List Event) : (s.emit es).tracker = s.tracker := rfl
@[simp] theorem State.emit_fault (es : List Event) : (s.emit es).fault = s.fault := rfl
@[simp] theorem State.emit_config (es : List Event) : (s.emit es).config = s.config := rfl
@[simp] theorem State.emit_input (es : List Event) : (s.emit es).input = s.input := rfl
@[simp] theorem State.emit_output (es : List Event) : (s.emit es).output = s.output ++ es := rfl
@[simp] theorem State.emit_statuses (es : List Event) : (s.emit es).statuses = s.statuses := rfl
@[simp] theorem State.emit_unitOut (es : List Event) : (s.emit es).unitOut = s.unitOut := rfl

@[simp] theorem State.complete_tracker (st : Status) : (s.complete st).tracker = s.tracker := rfl
@[simp] theorem State.complete_fault (st : Status) : (s.complete st).fault = s.fault := rfl
@[simp] theorem State.complete_config (st : Status) : (s.complete st).config = s.config := rfl
@[simp] theorem State.complete_input (st : Status) : (s.complete st).input = s.input := rfl
@[simp] theorem State.complete_output (st : Status) : (s.complete st).output = s.output := rfl
@[simp] theorem State.complete_statuses (st : Status) : (s.complete st).statuses = s.statuses ++ [st] := rfl
@[simp] theorem State.complete_unitOut (st : Status) : (s.complete st).unitOut = s.unitOut := rfl

@[simp] theorem State.setTracker_tracker (t : TrackerState) : (s.setTracker t).tracker = t := rfl
@[simp] theorem State.setTracker_fault (t : TrackerState) : (s.setTracker t).fault = s.fault := rfl
@[simp] theorem State.setTracker_config (t : TrackerState) : (s.setTracker t).config = s.config := rfl
@[simp] theorem State.setTracker_input (t : TrackerState) : (s.setTracker t).input = s.input := rfl
@[simp] theorem State.setTracker_output (t : TrackerState) : (s.setTracker t).output = s.output := rfl
@[simp] theorem State.setTracker_statuses (t : TrackerState) : (s.setTracker t).statuses = s.statuses := rfl
@[simp] theorem State.setTracker_unitOut (t : TrackerState) : (s.setTracker t).unitOut = s.unitOut := rfl

@[simp] theorem State.commit_tracker (t : TrackerState) (es : List Event) (st : Status) : (s.commit t es st).tracker = t := rfl
@[simp] theorem State.commit_fault (t : TrackerState) (es : List Event) (st : Status) : (s.commit t es st).fault = s.fault := rfl
@[simp] theorem State.commit_config (t : TrackerState) (es : List Event) (st : Status) : (s.commit t es st).config = s.config := rfl
@[simp] theorem State.commit_input (t : TrackerState) (es : List Event) (st : Status) : (s.commit t es st).input = s.input := rfl
@[simp] theorem State.commit_output (t : TrackerState) (es : List Event) (st : Status) : (s.commit t es st).output = s.output ++ es := rfl
@[simp] theorem State.commit_statuses (t : TrackerState) (es : List Event) (st : Status) : (s.commit t es st).statuses = s.statuses ++ [st] := rfl
@[simp] theorem State.commit_unitOut (t : TrackerState) (es : List Event) (st : Status) : (s.commit t es st).unitOut = s.unitOut := rfl

@[simp] theorem State.recoverableError_tracker (e : Event) (st : Status) : (s.recoverableError e st).tracker = s.tracker := rfl
@[simp] theorem State.recoverableError_fault (e : Event) (st : Status) : (s.recoverableError e st).fault = s.fault := rfl
@[simp] theorem State.recoverableError_config (e : Event) (st : Status) : (s.recoverableError e st).config = s.config := rfl
@[simp] theorem State.recoverableError_input (e : Event) (st : Status) : (s.recoverableError e st).input = s.input := rfl
@[simp] theorem State.recoverableError_output (e : Event) (st : Status) : (s.recoverableError e st).output = s.output ++ [e] := rfl
@[simp] theorem State.recoverableError_statuses (e : Event) (st : Status) : (s.recoverableError e st).statuses = s.statuses ++ [st] := rfl
@[simp] theorem State.recoverableError_unitOut (e : Event) (st : Status) : (s.recoverableError e st).unitOut = s.unitOut := rfl

@[simp] theorem State.raise_tracker (f : Fault) : (s.raise f).tracker = s.tracker := rfl
@[simp] theorem State.raise_fault (f : Fault) : (s.raise f).fault = some f := rfl
@[simp] theorem State.raise_config (f : Fault) : (s.raise f).config = s.config := rfl
@[simp] theorem State.raise_input (f : Fault) : (s.raise f).input = s.input := rfl
@[simp] theorem State.raise_output (f : Fault) : (s.raise f).output = s.output := rfl
@[simp] theorem State.raise_statuses (f : Fault) : (s.raise f).statuses = s.statuses := rfl
@[simp] theorem State.raise_unitOut (f : Fault) : (s.raise f).unitOut = s.unitOut := rfl

@[simp] theorem State.deliver_tracker (v : UnitValue) : (s.deliver v).tracker = s.tracker := rfl
@[simp] theorem State.deliver_fault (v : UnitValue) : (s.deliver v).fault = s.fault := rfl
@[simp] theorem State.deliver_config (v : UnitValue) : (s.deliver v).config = s.config := rfl
@[simp] theorem State.deliver_input (v : UnitValue) : (s.deliver v).input = s.input := rfl
@[simp] theorem State.deliver_output (v : UnitValue) : (s.deliver v).output = s.output := rfl
@[simp] theorem State.deliver_statuses (v : UnitValue) : (s.deliver v).statuses = s.statuses := rfl
@[simp] theorem State.deliver_unitOut (v : UnitValue) : (s.deliver v).unitOut = some v := rfl

@[simp] theorem State.setInput_tracker (ls : List Line) : (s.setInput ls).tracker = s.tracker := rfl
@[simp] theorem State.setInput_fault (ls : List Line) : (s.setInput ls).fault = s.fault := rfl
@[simp] theorem State.setInput_config (ls : List Line) : (s.setInput ls).config = s.config := rfl
@[simp] theorem State.setInput_input (ls : List Line) : (s.setInput ls).input = ls := rfl
@[simp] theorem State.setInput_output (ls : List Line) : (s.setInput ls).output = s.output := rfl
@[simp] theorem State.setInput_statuses (ls : List Line) : (s.setInput ls).statuses = s.statuses := rfl
@[simp] theorem State.setInput_unitOut (ls : List Line) : (s.setInput ls).unitOut = s.unitOut := rfl

@[simp] theorem State.await_tracker : (s.await).tracker = s.tracker := rfl
@[simp] theorem State.await_fault : (s.await).fault = s.fault := rfl
@[simp] theorem State.await_config : (s.await).config = s.config := rfl
@[simp] theorem State.await_input : (s.await).input = s.input := rfl
@[simp] theorem State.await_output : (s.await).output = s.output := rfl
@[simp] theorem State.await_statuses : (s.await).statuses = s.statuses := rfl
@[simp] theorem State.await_unitOut : (s.await).unitOut = s.unitOut := rfl

@[simp] theorem State.resetWith_tracker (c : Config) : (State.resetWith c).tracker = TrackerState.reset := rfl
@[simp] theorem State.resetWith_fault (c : Config) : (State.resetWith c).fault = none := rfl
@[simp] theorem State.resetWith_config (c : Config) : (State.resetWith c).config = c := rfl
@[simp] theorem State.resetWith_input (c : Config) : (State.resetWith c).input = [] := rfl
@[simp] theorem State.resetWith_output (c : Config) : (State.resetWith c).output = [] := rfl
@[simp] theorem State.resetWith_statuses (c : Config) : (State.resetWith c).statuses = [] := rfl
@[simp] theorem State.resetWith_unitOut (c : Config) : (State.resetWith c).unitOut = none := rfl

end Sys2Proof.Machine
end

