-- ==== Sys2Proof/Laws/Ops.lean ====
section
/-!
SUPPORT. The shared operations, each said once: the unit operands, the argument of a command, the fetch of a line, the cut
of a line at its first space.
-/
namespace Sys2Proof.Machine

theorem natural_natCast (n : Nat) : natural (n : Int) = some n := by
  simp [natural]

theorem natural_eq_none {v : Int} : natural v = none ↔ v < 0 := by
  unfold natural; split <;> simp_all

theorem natural_eq_some {v : Int} {n : Nat} : natural v = some n ↔ v = (n : Int) := by
  unfold natural; split <;> simp <;> omega

theorem naturals_natCast (ps : List Nat) : naturals (ps.map (fun p : Nat => (p : Int))) = some ps := by
  induction ps with
  | nil => rfl
  | cons p ps ih => simp [naturals, natural_natCast, ih]

theorem naturals_eq_some {ps : List Int} {ns : List Nat} :
    naturals ps = some ns ↔ ps = ns.map (fun p : Nat => (p : Int)) := by
  constructor
  · induction ps generalizing ns with
    | nil => intro h; cases h; rfl
    | cons p ps ih =>
      intro h
      simp only [naturals] at h
      split at h
      · next n ns' hn hns =>
        cases h
        rw [ih hns, natural_eq_some.mp hn]
        rfl
      · cases h
  · rintro rfl; exact naturals_natCast ns

theorem naturals_eq_none {ps : List Int} : naturals ps = none ↔ ∃ p ∈ ps, p < 0 := by
  induction ps with
  | nil => simp [naturals]
  | cons p ps ih =>
    rw [List.exists_mem_cons_iff, ← ih, ← natural_eq_none]
    simp only [naturals]
    cases natural p <;> cases naturals ps <;> simp

/-- Everything a command with an argument can do before its own effect (R92, R93, R105). -/
theorem withArgument_cases (arg : Line) (s : State) (run : Nat → Result) :
    (parseArg s.config arg = none ∧
      withArgument arg s run = .next (s.recoverableError (.errArgument arg) .argErr)) ∨
    (∃ v, parseArg s.config arg = some v ∧ v < 0 ∧
      withArgument arg s run = .next (s.raise (.negArg arg))) ∨
    (∃ n : Nat, parseArg s.config arg = some (n : Int) ∧ withArgument arg s run = run n) := by
  unfold withArgument
  cases hp : parseArg s.config arg with
  | none => simp
  | some v =>
    cases hn : natural v with
    | none => exact .inr (.inl ⟨v, rfl, natural_eq_none.mp hn, by simp only [hn]⟩)
    | some n => exact .inr (.inr ⟨n, by rw [natural_eq_some.mp hn], by simp only [hn]⟩)

/-- The fetch of a line (R25, R30): what it takes and what it leaves. -/
theorem fetch_cons {s : State} {line : Line} {rest : List Line} (h : s.input = line :: rest) :
    fetch s = some (decode line, s.setInput rest) := by
  simp [fetch, h]

theorem fetch_nil {s : State} (h : s.input = []) : fetch s = none := by
  simp [fetch, h]

end Sys2Proof.Machine

namespace Sys2Proof

theorem split_cons_space (cs : Line) : split (space :: cs) = ([], cs) := by
  simp [split]

theorem split_cons_ne {c : Character} (cs : Line) (h : c ≠ space) :
    split (c :: cs) = (c :: (split cs).1, (split cs).2) := by
  simp [split, h]

/-- Every line decodes to one of the four commands (R53, R54). -/
theorem decode_cases (line : Line) :
    decode line = .usage ∨ (∃ a, decode line = .log a) ∨ (∃ a, decode line = .query a) ∨
      decode line = .invalid invalidReason := by
  unfold decode
  simp only
  split
  · exact .inl rfl
  · split
    · exact .inr (.inl ⟨_, rfl⟩)
    · split
      · exact .inr (.inr (.inl ⟨_, rfl⟩))
      · exact .inr (.inr (.inr rfl))

end Sys2Proof
end

