-- ==== Sys2Proof/Laws/PerInstr.lean ====
section
/-!
SUPPORT. Statements for all instructions, one lemma per constructor. Family `Encoding`: exactly the LINE rows have an
encoding (spec/30_encoding.md R59).
-/
namespace Sys2Proof.Laws.Encoding

/-- The instruction has an encoding exactly when it is of format LINE. -/
def Statement (i : Instr) : Prop := (encode i).isSome = i.isLine

theorem usage : Statement .usage := rfl
theorem log (arg : Line) : Statement (.log arg) := rfl
theorem query (arg : Line) : Statement (.query arg) := rfl
theorem invalid (reason : Line) : Statement (.invalid reason) := rfl
theorem toBits (value width : Nat) : Statement (.toBits value width) := rfl
theorem fromBits (s : List Bit) : Statement (.fromBits s) := rfl
theorem shiftHash (value : Int) : Statement (.shiftHash value) := rfl
theorem matrixHash (value : Int) : Statement (.matrixHash value) := rfl
theorem mask (positions : List Int) : Statement (.mask positions) := rfl
theorem dedup (positions : List Nat) : Statement (.dedup positions) := rfl
theorem insert (existing : Filter) (newPositions : List Int) : Statement (.insert existing newPositions) := rfl
theorem has (filter : Filter) (positions : List Int) : Statement (.has filter positions) := rfl
theorem refresh (existing : Filter) : Statement (.refresh existing) := rfl

end Sys2Proof.Laws.Encoding
end

