-- ==== Sys2Proof/Laws/Step.lean ====
section
/-!
SUPPORT. What a step can do, said once: later proofs cite these instead of unfolding the step or a meaning.
-/
namespace Sys2Proof.Machine

/-- A step that answers a next state ran from an unfaulted state and either waited or executed the next line. -/
theorem step_cases {s s' : State} (h : step s = .next s') :
    s.fault = none ∧
      ((s.input = [] ∧ s' = s) ∨
        ∃ line rest, s.input = line :: rest ∧ exec (decode line) (s.setInput rest) = .next s') := by
  unfold step at h
  split at h
  · cases h
  · next hf =>
    refine ⟨hf, ?_⟩
    cases hi : s.input with
    | nil =>
      rw [fetch_nil hi] at h
      cases h
      exact .inl ⟨rfl, rfl⟩
    | cons line rest =>
      rw [fetch_cons hi] at h
      exact .inr ⟨line, rest, rfl, h⟩

/-- Everything `log` can do (R95). -/
theorem execLog_cases {arg : Line} {s s' : State} (h : exec (.log arg) s = .next s') :
    (parseArg s.config arg = none ∧ s' = s.recoverableError (.errArgument arg) .argErr) ∨
    (∃ v, parseArg s.config arg = some v ∧ v < 0 ∧ s' = s.raise (.negArg arg)) ∨
    (∃ n : Nat, parseArg s.config arg = some (n : Int) ∧
      s' = s.commit
        { filter := insert s.tracker.filter [(hash s.config n).position1, (hash s.config n).position2]
          lastHash := some (hash s.config n) }
        [.hash (hash s.config n).position1 (hash s.config n).position2] .ok) := by
  have h' : execLog arg s = .next s' := h
  unfold execLog at h'
  rcases withArgument_cases arg s _ with ⟨hp, e⟩ | ⟨v, hp, hv, e⟩ | ⟨n, hp, e⟩
  · rw [e] at h'; cases h'; exact .inl ⟨hp, rfl⟩
  · rw [e] at h'; cases h'; exact .inr (.inl ⟨v, hp, hv, rfl⟩)
  · rw [e] at h'; cases h'; exact .inr (.inr ⟨n, hp, rfl⟩)

/-- Everything `query` can do (R96). -/
theorem execQuery_cases {arg : Line} {s s' : State} (h : exec (.query arg) s = .next s') :
    (parseArg s.config arg = none ∧ s' = s.recoverableError (.errArgument arg) .argErr) ∨
    (∃ v, parseArg s.config arg = some v ∧ v < 0 ∧ s' = s.raise (.negArg arg)) ∨
    (∃ n : Nat, parseArg s.config arg = some (n : Int) ∧
      s' = s.commit
        { filter := refresh s.tracker.filter
          lastHash := lastHashAfterQuery s.config (hash s.config n) s.tracker.lastHash }
        [.hash (hash s.config n).position1 (hash s.config n).position2,
          .verdict (verdictOf (has s.tracker.filter [(hash s.config n).position1, (hash s.config n).position2]))]
        .ok) := by
  have h' : execQuery arg s = .next s' := h
  unfold execQuery at h'
  rcases withArgument_cases arg s _ with ⟨hp, e⟩ | ⟨v, hp, hv, e⟩ | ⟨n, hp, e⟩
  · rw [e] at h'; cases h'; exact .inl ⟨hp, rfl⟩
  · rw [e] at h'; cases h'; exact .inr (.inl ⟨v, hp, hv, rfl⟩)
  · rw [e] at h'; cases h'; exact .inr (.inr ⟨n, hp, rfl⟩)

/-- A function unit that answers a next state has delivered a value and done nothing else (R62, R81). -/
theorem exec_unit_cases {i : Instr} (hi : i.isLine = false) {s s' : State} (h : exec i s = .next s') :
    ∃ v, s' = s.deliver v := by
  cases i with
  | usage | log | query | invalid => cases hi
  | toBits value width =>
    simp only [exec, execToBits] at h
    split at h
    · cases h
    · cases h; exact ⟨_, rfl⟩
  | fromBits | dedup | refresh => cases h; exact ⟨_, rfl⟩
  | shiftHash value =>
    simp only [exec, execShiftHash] at h
    split at h
    · cases h
    · cases h; exact ⟨_, rfl⟩
  | matrixHash value =>
    simp only [exec, execMatrixHash] at h
    split at h
    · cases h
    · cases h; exact ⟨_, rfl⟩
  | mask positions =>
    simp only [exec, execMask] at h
    split at h
    · cases h
    · cases h; exact ⟨_, rfl⟩
  | insert existing newPositions =>
    simp only [exec, execInsert] at h
    split at h
    · cases h
    · cases h; exact ⟨_, rfl⟩
  | has filter positions =>
    simp only [exec, execHas] at h
    split at h
    · cases h
    · split at h
      · cases h
      · cases h; exact ⟨_, rfl⟩

/-- The first of `n + 1` steps, by the answer of that step (R124). -/
theorem run_succ_next {n : Nat} {s t : State} (h : step s = .next t) : run (n + 1) s = run n t := by
  simp only [run, h]

theorem run_succ_fault {n : Nat} {s : State} {f : Fault} (h : step s = .fault f) : run (n + 1) s = .fault f := by
  simp only [run, h]

theorem run_succ_refused {n : Nat} {s : State} {r : Refusal} (h : step s = .refused r) :
    run (n + 1) s = .refused r := by
  simp only [run, h]

/-- The model's run is the host's run of its core. -/
theorem run_eq_core_run (n : Nat) (s : State) : run n s = Host.Core.run core n s := by
  induction n generalizing s with
  | zero => rfl
  | succ n ih =>
    refine Eq.trans ?_ (Host.Core.run.eq_2 core s n).symm
    have h : core.step s = step s := rfl
    unfold run
    cases hs : step s with
    | next t => rw [hs] at h; simp only [h]; exact ih t
    | fault f => rw [hs] at h; simp only [h]; rfl
    | refused r => rw [hs] at h; simp only [h]; rfl

/-- A relation that is reflexive and grows by a step at its front holds between the ends of every run. -/
theorem run_induction {P : State → State → Prop} (hrefl : ∀ s, P s s)
    (hstep : ∀ s s' s'', step s = .next s' → P s' s'' → P s s'') :
    ∀ n s s', run n s = .next s' → P s s'
  | 0, s, s', h => by cases h; exact hrefl s
  | n + 1, s, s', h => by
    cases ht : step s with
    | next t => exact hstep s t s' ht (run_induction hrefl hstep n t s' (run_succ_next ht ▸ h))
    | fault f => rw [run_succ_fault ht] at h; cases h
    | refused r => rw [run_succ_refused ht] at h; cases h

end Sys2Proof.Machine
end

