-- ==== Sys2Proof/Tests/Slice0.lean ====
section
/-!
SUPPORT. The model's own tests, each with an expected result from spec/95_test_vectors.md (or the rule named beside it), and
the witnesses of the statements' hypotheses.
-/
namespace Sys2Proof.Tests

open Sys2Proof Sys2Proof.Machine

/-- Example matrix E of 95_test_vectors.md section 2.3: row `i` has its only 1 in column `59 + i`. -/
def matrixE : BitMatrix where
  row0 := 16
  row1 := 8
  row2 := 4
  row3 := 2
  row4 := 1

/-- Example matrix J of section 2.3: all entries are 1. -/
def matrixJ : BitMatrix where
  row0 := 0xFFFFFFFFFFFFFFFF
  row1 := 0xFFFFFFFFFFFFFFFF
  row2 := 0xFFFFFFFFFFFFFFFF
  row3 := 0xFFFFFFFFFFFFFFFF
  row4 := 0xFFFFFFFFFFFFFFFF

/-- The example range X and matrices E, J of 95_test_vectors.md, with a chosen hasher. -/
def exampleConfig (sel : HashSel) : Config where
  hashSel := sel
  h1 := matrixE
  h2 := matrixJ
  argMin := -9223372036854775808
  argMax := 18446744073709551615
  argParse := .strict
  querySetsLastHash := false
  usageText := Config.advertisedVerbs

/-- S0 of 95_test_vectors.md. -/
def s0 (sel : HashSel := .shift) : State := State.resetWith (exampleConfig sel)

/-- S9 of 95_test_vectors.md section 2.6: the tracker state after `log 5`. -/
def s9 : State :=
  (s0).setTracker { filter := { bits := 0x00000009, newlySet := [0, 3] }, lastHash := some ⟨0, 3⟩ }

/-- The next state of an answer, if it is one. -/
def nextOf : Result → Option State
  | .next s => some s
  | .fault _ => none
  | .refused _ => none

/-- The refusal of an answer, if it is one. -/
def refusalOf : Result → Option Refusal
  | .next _ => none
  | .fault _ => none
  | .refused r => some r

theorem eq_next_of_nextOf {r : Result} {s : State} (h : nextOf r = some s) : r = .next s := by
  cases r <;> simp_all [nextOf]

/-! ### Well-formedness: each check refuses an ill-formed term (R53, R111) -/

theorem test_wf_invalid_reason : ¬ WellFormed (.invalid "other".toList) := by decide
theorem test_wf_toBits_width0 : ¬ WellFormed (.toBits 5 0) := by decide
theorem test_wf_shiftHash_negative : ¬ WellFormed (.shiftHash (-1)) := by decide
theorem test_wf_matrixHash_negative : ¬ WellFormed (.matrixHash (-1)) := by decide
theorem test_wf_mask_negative : ¬ WellFormed (.mask [-1, 0]) := by decide
theorem test_wf_insert_negative : ¬ WellFormed (.insert ⟨0, []⟩ [0, -3]) := by decide
theorem test_wf_has_arity : ¬ WellFormed (.has ⟨9, []⟩ [0, 3, 1]) := by decide
theorem test_wf_has_negative : ¬ WellFormed (.has ⟨9, []⟩ [0, -3]) := by decide
theorem test_wf_has : WellFormed (.has ⟨9, []⟩ [0, 3]) := by decide

/-! ### Decoding (95_test_vectors.md sections 2.5 and 3; the words are written out byte by byte) -/

/-- P1 step 1: 6C 6F 67 20 35. -/
theorem test_decode_log_5 :
    decodeTableWord 40 (0x6C + 0x6F * 2 ^ 8 + 0x67 * 2 ^ 16 + 0x20 * 2 ^ 24 + 0x35 * 2 ^ 32) = some (.log ['5']) := by
  decide

/-- P1 step 4: 71 75 65 72 79 20 31 30. -/
theorem test_decode_query_10 :
    decodeTableWord 64 (0x71 + 0x75 * 2 ^ 8 + 0x65 * 2 ^ 16 + 0x72 * 2 ^ 24 + 0x79 * 2 ^ 32 + 0x20 * 2 ^ 40 +
      0x31 * 2 ^ 48 + 0x30 * 2 ^ 56) = some (.query ['1', '0']) := by
  decide

/-- P2 step 3: 75 73 61 67 65. -/
theorem test_decode_usage :
    decodeTableWord 40 (0x75 + 0x73 * 2 ^ 8 + 0x61 * 2 ^ 16 + 0x67 * 2 ^ 24 + 0x65 * 2 ^ 32) = some .usage := by
  decide

/-- P2 step 4: 72 65 73 65 74. -/
theorem test_decode_reset_is_invalid :
    decodeTableWord 40 (0x72 + 0x65 * 2 ^ 8 + 0x73 * 2 ^ 16 + 0x65 * 2 ^ 24 + 0x74 * 2 ^ 32) =
      some (.invalid "Invalid command".toList) := by
  decide

theorem test_decode_usage_rest : decode "usage log 5".toList = .usage := by decide
theorem test_decode_log_bare : decode "log".toList = .log [] := by decide
theorem test_decode_log_trailing_space : decode "log ".toList = .log [] := by decide
theorem test_decode_log_two_spaces : decode "log  5".toList = .log " 5".toList := by decide
theorem test_decode_leading_space : decode " log 5".toList = .invalid "Invalid command".toList := by decide
theorem test_decode_upper_case : decode "LOG 5".toList = .invalid "Invalid command".toList := by decide
theorem test_decode_tab : decode "log\t5".toList = .invalid "Invalid command".toList := by decide
theorem test_decode_empty : decode [] = .invalid "Invalid command".toList := by decide

/-! ### Argument strings (95_test_vectors.md section 2.5, example range X) -/

theorem test_parse_leading_zeros : parseArg (exampleConfig .shift) "007".toList = some 7 := by decide
theorem test_parse_minus_zero : parseArg (exampleConfig .shift) "-0".toList = some 0 := by decide
theorem test_parse_minus_one : parseArg (exampleConfig .shift) "-1".toList = some (-1) := by decide
theorem test_parse_max :
    parseArg (exampleConfig .shift) "18446744073709551615".toList = some 18446744073709551615 := by decide
theorem test_parse_above_max : parseArg (exampleConfig .shift) "18446744073709551616".toList = none := by decide
theorem test_parse_min :
    parseArg (exampleConfig .shift) "-9223372036854775808".toList = some (-9223372036854775808) := by decide
theorem test_parse_below_min : parseArg (exampleConfig .shift) "-9223372036854775809".toList = none := by decide
theorem test_parse_failures :
    ∀ a ∈ ["", "abc", "5abc", "+5", "0x10", "1.0", "1e3", "5 ", " 5", "-"],
      parseArg (exampleConfig .shift) a.toList = none := by decide

/-! ### Units (95_test_vectors.md sections 2.1 to 2.4) -/

theorem test_toBits_5_4 :
    nextOf (exec (.toBits 5 4) s0) = some (s0.deliver (.bits [false, true, false, true])) := by decide
theorem test_toBits_discards :
    nextOf (exec (.toBits 5 2) s0) = some (s0.deliver (.bits [false, true])) := by decide
theorem test_fromBits_7 :
    nextOf (exec (.fromBits [false, false, true, true, true]) s0) = some (s0.deliver (.nat 7)) := by decide
theorem test_fromBits_empty : nextOf (exec (.fromBits []) s0) = some (s0.deliver (.nat 0)) := by decide
theorem test_shiftHash_12345 :
    nextOf (exec (.shiftHash 12345) s0) = some (s0.deliver (.pair ⟨70, 69⟩)) := by decide
theorem test_shiftHash_not_truncated :
    nextOf (exec (.shiftHash 18446744073709551621) s0) = some (s0.deliver (.pair ⟨0, 4294967299⟩)) := by decide
theorem test_matrixHash_13 :
    nextOf (exec (.matrixHash 13) s0) = some (s0.deliver (.pair ⟨13, 31⟩)) := by decide
theorem test_matrixHash_truncated :
    nextOf (exec (.matrixHash 18446744073709551621) s0) = some (s0.deliver (.pair ⟨5, 0⟩)) := by decide
theorem test_mask_collision : nextOf (exec (.mask [0, 32]) s0) = some (s0.deliver (.word 0x00000001)) := by decide
theorem test_mask_large :
    nextOf (exec (.mask [4294967295, 0]) s0) = some (s0.deliver (.word 0x80000001)) := by decide
theorem test_dedup_first_occurrence :
    nextOf (exec (.dedup [5, 1, 5, 2, 1]) s0) = some (s0.deliver (.positions [5, 1, 2])) := by decide
theorem test_dedup_raw : nextOf (exec (.dedup [0, 32]) s0) = some (s0.deliver (.positions [0, 32])) := by decide
theorem test_insert :
    nextOf (exec (.insert ⟨0x00000009, [0, 3]⟩ [1, 3]) s0) =
      some (s0.deliver (.filter ⟨0x0000000B, [1, 3]⟩)) := by decide
theorem test_insert_equal_positions :
    nextOf (exec (.insert ⟨0, []⟩ [31, 31]) s0) = some (s0.deliver (.filter ⟨0x80000000, [31]⟩)) := by decide
theorem test_has_false_positive :
    nextOf (exec (.has ⟨0x00000009, []⟩ [3, 0]) s0) = some (s0.deliver (.bool true)) := by decide
theorem test_has_absent :
    nextOf (exec (.has ⟨0x00000009, []⟩ [1, 3]) s0) = some (s0.deliver (.bool false)) := by decide
theorem test_refresh :
    nextOf (exec (.refresh ⟨0x00000009, [0, 3]⟩) s0) = some (s0.deliver (.filter ⟨0x00000009, []⟩)) := by decide
theorem test_has_refused : refusalOf (exec (.has ⟨0x00000009, []⟩ [0]) s0) = some .hasArity := by decide

/-! ### Commands (95_test_vectors.md section 2.6) -/

theorem test_log_5_from_reset :
    nextOf (exec (.log ['5']) s0) = some (s9.commit s9.tracker [.hash 0 3] .ok) := by decide

/-- Section 2.6, last row: HASH_SEL = MATRIX, H1 = E, H2 = J. -/
theorem test_log_7_matrix :
    (nextOf (exec (.log ['7']) (s0 .matrix))).map State.tracker =
      some { filter := { bits := 0x80000080, newlySet := [7, 31] }, lastHash := some ⟨7, 31⟩ } := by decide

theorem test_query_10_false_positive :
    (nextOf (exec (.query "10".toList) s9)).map State.output =
      some [.hash 3 0, .verdict .possiblyPresent] := by decide

theorem test_query_7_absent :
    nextOf (exec (.query ['7']) s9) = some (s9.commit
      { filter := { bits := 0x00000009, newlySet := [] }, lastHash := some ⟨0, 3⟩ }
      [.hash 1 3, .verdict .definitelyAbsent] .ok) := by decide

theorem test_usage_keeps_newlySet :
    nextOf (exec .usage s9) = some (s9.commit s9.tracker [.usage Config.advertisedVerbs] .ok) := by decide

theorem test_invalid : nextOf (exec (decode "frobnicate".toList) s9) =
    some (s9.recoverableError (.errCommand "Invalid command".toList) .cmdErr) := by decide

/-- Section 2.6: `query -1` writes nothing but the mark. -/
theorem test_query_minus_one :
    nextOf (exec (.query "-1".toList) s9) = some (s9.raise (.negArg "-1".toList)) := by decide

/-! ### The step -/

theorem test_step_runs_head :
    (nextOf (step (s0.present ["log 5".toList, "query 5".toList]))).map (fun s => (s.tracker, s.input)) =
      some (s9.tracker, ["query 5".toList]) := by decide

theorem test_withFetchWord :
    (nextOf (step (s0.withFetchWord 40 0x3520676F6C))).map State.tracker = some s9.tracker := by decide

theorem test_reset_withFetchWord_log_bare :
    (nextOf (step (State.reset.withFetchWord 24 0x676F6C))).map State.statuses = some [.argErr] := by decide

theorem test_status_codes : Status.ok.code = 0 ∧ Status.cmdErr.code = 1 ∧ Status.argErr.code = 2 := by decide

/-! ### Witnesses: a concrete state and operands meet the hypotheses of each statement -/

/-- The S9 state with `lines` waiting. -/
def waiting (lines : List Line) : State := s9.setInput lines

/-- The state S9 with the fault mark of `query -1`. -/
def faulted : State := s9.raise (.negArg "-1".toList)

theorem accepted_5 (sel : HashSel) : parseArg (exampleConfig sel) ['5'] = some ((5 : Nat) : Int) := by
  cases sel <;> decide

theorem legal_example : (exampleConfig .shift).legal := by decide

theorem witness_DecodeOfEncodeIsTheCommand : (Instr.log ['5']).isLine = true ∧ WellFormed (.log ['5']) := by decide
theorem witness_SplitCutsAtTheFirstSpace : ' ' ∉ "log".toList ∧ ' ' ∉ ([] : Line) := by decide
theorem witness_UnknownVerbsDecodeToInvalid :
    "frobnicate".toList.takeWhile (fun c => c != ' ') ∉ ["usage".toList, "log".toList, "query".toList] := by decide
theorem witness_InvalidReportsAndWritesNothing :
    ([] : Line).takeWhile (fun c => c != ' ') ∉ ["usage".toList, "log".toList, "query".toList] := by decide
theorem witness_NoLineSelectsAUnit : (Instr.dedup [1]).isLine = false := by decide
theorem witness_StrictGrammarAcceptsExactlySignedDecimals :
    strictArgParse "-0".toList = some 0 ∧ strictArgParse "9".toList = some 9 := by decide
theorem witness_ParseArgChecksTheRange :
    argParse (exampleConfig .shift) "18446744073709551616".toList = some 18446744073709551616 := by decide
theorem witness_LegalConfigurationsParseTheExamples : ∃ c : Config, c.legal := ⟨_, legal_example⟩
theorem witness_ToBitsDeliversMostSignificantFirst : 1 ≤ 1 ∧ 0 < 1 := by decide
theorem witness_BitConversionsAreInverse : 0 < 2 ^ 0 ∧ 31 < 2 ^ 5 := by decide
theorem witness_ShiftHasherHalvesTheWidth : 1023 < 2 ^ (2 * 5) ∧ 0 < 2 ^ (2 * 0) := by decide
theorem witness_MatrixHasherMultipliesOverGF2 : (-1 : Int) < 0 ∧ 0 < 5 ∧ 4 < 5 := by decide
theorem witness_MatrixPositionsNeedNoReduction : ∃ s', exec (.matrixHash 13) s0 = .next s' :=
  ⟨_, eq_next_of_nextOf test_matrixHash_13⟩
theorem witness_MaskSetsExactlyTheReducedPositions : [31] ≠ ([] : List Nat) ∧ 31 < 32 ∧ 0 < 32 := by decide
theorem witness_DedupKeepsFirstOccurrences : 5 ∈ [5, 1, 5, 2, 1] ∧ 2 ∈ [5, 1, 5, 2, 1] := by decide
theorem witness_InsertSetsBitsAndNewlySet : ∃ p ∈ [0, -1], p < (0 : Int) := by decide
theorem witness_UnitsRefuseUsesOutsideTheirContract :
    (-1 : Int) < 0 ∧ (∃ p ∈ [-1, 0], p < (0 : Int)) ∧ ([-1, 0] : List Int).length = 2 ∧
      ([0] : List Int).length ≠ 2 ∧ ([] : List Int).length ≠ 2 := by decide
theorem witness_UnitsCompleteWithinContractAndWriteNothing :
    ((Instr.toBits 5 1).isLine = false ∧ WellFormed (.toBits 5 1)) ∧
      ((Instr.toBits 5 0).isLine = false ∧ ¬ WellFormed (.toBits 5 0)) := by decide
theorem witness_UnparsedArgumentIsRecoverable : parseArg (s0).config [] = none := by decide
theorem witness_NegativeArgumentSetsOnlyTheFaultMark :
    parseArg (s0).config "-1".toList = some (-1) ∧ (-1 : Int) < 0 := by decide
theorem witness_LogUnderShiftRecordsOddAndEvenBits :
    (s0 .shift).config.hashSel = .shift ∧ parseArg (s0 .shift).config ['5'] = some ((5 : Nat) : Int) :=
  ⟨rfl, accepted_5 .shift⟩
theorem witness_LogUnderMatrixRecordsTheProducts :
    (s0 .matrix).config.hashSel = .matrix ∧ parseArg (s0 .matrix).config ['5'] = some ((5 : Nat) : Int) :=
  ⟨rfl, accepted_5 .matrix⟩
theorem witness_QueryReportsMembershipAndRefreshes : parseArg s9.config ['5'] = some ((5 : Nat) : Int) :=
  accepted_5 .shift
theorem witness_BothCommandsUseTheConfiguredHasher :
    parseArg (s0 .shift).config ['5'] = some ((5 : Nat) : Int) ∧
      parseArg (s0 .matrix).config ['5'] = some ((5 : Nat) : Int) :=
  ⟨accepted_5 .shift, accepted_5 .matrix⟩
theorem witness_LowTenBitsDecideTheBitsSet :
    (s0).config.hashSel = .shift ∧ parseArg (s0).config "0".toList = some ((0 : Nat) : Int) ∧
      parseArg (s0).config "1024".toList = some ((1024 : Nat) : Int) ∧ 0 % 1024 = 1024 % 1024 := by decide
theorem witness_EmptyFilterReportsAbsent :
    (s0).tracker.filter.bits = 0 ∧ parseArg (s0).config ['7'] = some ((7 : Nat) : Int) := by decide
theorem witness_RepeatedCommandsAreIdempotent :
    (∃ s1, exec (.log ['5']) s0 = .next s1) ∧ (∃ s1, exec (.query ['7']) s9 = .next s1) :=
  ⟨⟨_, eq_next_of_nextOf test_log_5_from_reset⟩, ⟨_, eq_next_of_nextOf test_query_7_absent⟩⟩
theorem witness_CommandsWriteOnlyTrackerAndDiagnostics :
    (Instr.log ['5']).isLine = true ∧ ∃ s', exec (.log ['5']) s0 = .next s' :=
  ⟨rfl, _, eq_next_of_nextOf test_log_5_from_reset⟩
theorem witness_OnlyAcceptedLogChangesBits :
    ∃ s', exec (.log ['5']) s0 = .next s' ∧ s'.tracker.filter.bits ≠ (s0).tracker.filter.bits :=
  ⟨_, eq_next_of_nextOf test_log_5_from_reset, by decide⟩
theorem witness_OnlyAcceptedCommandsWriteDisplayState :
    ∃ s', exec (.log ['5']) s0 = .next s' ∧ s'.tracker.filter.newlySet ≠ (s0).tracker.filter.newlySet ∧
      s'.tracker.lastHash ≠ (s0).tracker.lastHash :=
  ⟨_, eq_next_of_nextOf test_log_5_from_reset, by decide, by decide⟩
theorem witness_StepRunsTheDecodedLine :
    (waiting ["log 5".toList]).fault = none ∧ (waiting ["log 5".toList]).input = "log 5".toList :: [] ∧
      decodeTableWord 40 0x3520676F6C = some (.log ['5']) := by decide
theorem witness_FaultedBlockTakesNoStep : faulted.fault = some (.negArg "-1".toList) := by decide
theorem witness_IdleBlockHoldsItsState : s9.fault = none ∧ s9.input = [] := by decide

theorem step_waiting_reset : nextOf (step (waiting ["reset".toList])) =
    some (s9.recoverableError (.errCommand "Invalid command".toList) .cmdErr) := by decide

theorem witness_EveryCommandTakesExactlyItsLine :
    (waiting ["reset".toList]).input = "reset".toList :: [] ∧ ∃ s', step (waiting ["reset".toList]) = .next s' :=
  ⟨rfl, _, eq_next_of_nextOf step_waiting_reset⟩
theorem witness_EveryLineEndsInOneWay :
    (waiting ["query -1".toList]).fault = none ∧ (waiting ["query -1".toList]).input = "query -1".toList :: [] := by
  decide
theorem witness_ErrorsLeaveTheTrackerUnchanged :
    ∃ s', step (waiting ["reset".toList]) = .next s' ∧
      s'.statuses = (waiting ["reset".toList]).statuses ++ [.cmdErr] ∧ Status.cmdErr ≠ .ok :=
  ⟨_, eq_next_of_nextOf step_waiting_reset, by decide, by decide⟩
theorem witness_runs : ∃ s', run 1 (waiting ["reset".toList]) = .next s' :=
  ⟨_, run_succ_next (eq_next_of_nextOf step_waiting_reset)⟩
theorem witness_BitsAreNeverClearedAlongARun : ∃ n s s', run n s = .next s' :=
  ⟨1, _, witness_runs⟩
theorem witness_ConfigurationIsNeverWritten :
    (∃ i s s', exec i s = .next s') ∧ ∃ n s s', run n s = .next s' :=
  ⟨⟨_, _, _, eq_next_of_nextOf test_log_5_from_reset⟩, 1, _, witness_runs⟩
theorem witness_DiagnosticOutputOnlyGrows : ∃ n s s', run n s = .next s' := ⟨1, _, witness_runs⟩
theorem witness_ResetVerbClearsNothing :
    (waiting ["reset".toList]).fault = none ∧ (waiting ["reset".toList]).input = "reset".toList :: [] ∧
      ∃ s', exec .usage s9 = .next s' ∧ s9.tracker.filter.bits.getLsbD 3 = true :=
  ⟨rfl, rfl, _, eq_next_of_nextOf test_usage_keeps_newlySet, by decide⟩
theorem witness_DisplayStateIsNeverRead :
    (waiting ["reset".toList]).tracker.filter.bits = ((waiting ["reset".toList]).setTracker
        { filter := { bits := 9, newlySet := [] }, lastHash := none }).tracker.filter.bits ∧
      ∃ s', step (waiting ["reset".toList]) = .next s' :=
  ⟨by decide, _, eq_next_of_nextOf step_waiting_reset⟩
theorem displayInv_s9 : DisplayInv s9.tracker := .inr ⟨⟨0, 3⟩, rfl, by decide, by decide⟩
theorem witness_DisplayInvariantIsKept :
    DisplayInv (waiting ["reset".toList]).tracker ∧ ∃ s', step (waiting ["reset".toList]) = .next s' :=
  ⟨displayInv_s9, _, eq_next_of_nextOf step_waiting_reset⟩
theorem witness_JustFlippedCellsAreOn :
    DisplayInv s9.tracker ∧ s9.readout.cellJustFlipped 3 = true :=
  ⟨displayInv_s9, by decide⟩
theorem witness_LoggedValuesStayPresent :
    ∃ s1, parseArg (s0).config ['5'] = some ((5 : Nat) : Int) ∧ exec (.log ['5']) s0 = .next s1 ∧
      run 0 s1 = .next s1 ∧ parseArg s1.config "005".toList = some ((5 : Nat) : Int) :=
  ⟨_, accepted_5 .shift, eq_next_of_nextOf test_log_5_from_reset, rfl, by decide⟩
theorem witness_RunsWithoutNegativeArgumentsEndWell :
    (waiting ["reset".toList]).fault = none ∧
      ∀ line ∈ (waiting ["reset".toList]).input, ∀ arg v, (decode line = .log arg ∨ decode line = .query arg) →
        parseArg (waiting ["reset".toList]).config arg = some v → 0 ≤ v := by
  refine ⟨rfl, fun line hl arg v hd _ => ?_⟩
  have e : line = "reset".toList := List.mem_singleton.mp hl
  have h : decode "reset".toList = .invalid invalidReason := by decide
  rw [e, h] at hd
  rcases hd with hd | hd <;> cases hd
theorem witness_BitsAreExactlyThoseLogged :
    ∃ s', run (waiting ["reset".toList]).input.length (waiting ["reset".toList]) = .next s' ∧ s'.fault = none ∧
      31 < 32 :=
  ⟨_, run_succ_next (eq_next_of_nextOf step_waiting_reset), by decide, by decide⟩

end Sys2Proof.Tests
end

section
/-!
PROOFS. What runs keep of the state (spec/10_state.md): the filter register only accumulates (R23) and the configuration is
constant (R28). Both follow from the shapes that a next state can have.
-/
namespace Sys2Proof.Machine

/-- The four shapes of a next state. A commit may write any tracker state whose register is the old one with bits added. -/
inductive Effect (s : State) : State → Prop
  | commit (t : TrackerState) (es : List Event) (st : Status) (m : Word32)
      (hbits : t.filter.bits = s.tracker.filter.bits ||| m) : Effect s (s.commit t es st)
  | recoverableError (e : Event) (st : Status) : Effect s (s.recoverableError e st)
  | raise (f : Fault) : Effect s (s.raise f)
  | deliver (v : UnitValue) : Effect s (s.deliver v)

/-- Every instruction that answers a next state does so by one of the four effects. -/
theorem exec_effect {i : Instr} {s s' : State} (h : exec i s = .next s') : Effect s s' := by
  cases i with
  | usage => cases h; exact .commit _ _ _ 0 BitVec.or_zero.symm
  | log arg =>
    rcases execLog_cases h with ⟨-, rfl⟩ | ⟨v, -, -, rfl⟩ | ⟨n, -, rfl⟩
    · exact .recoverableError _ _
    · exact .raise _
    · exact .commit _ _ _ (mask _) rfl
  | query arg =>
    rcases execQuery_cases h with ⟨-, rfl⟩ | ⟨v, -, -, rfl⟩ | ⟨n, -, rfl⟩
    · exact .recoverableError _ _
    · exact .raise _
    · exact .commit _ _ _ 0 BitVec.or_zero.symm
  | invalid reason => cases h; exact .recoverableError _ _
  | toBits | fromBits | shiftHash | matrixHash | mask | dedup | insert | has | refresh =>
    obtain ⟨v, rfl⟩ := exec_unit_cases rfl h
    exact .deliver v

theorem Effect.config_eq {s s' : State} (h : Effect s s') : s'.config = s.config := by
  cases h <;> rfl

theorem Effect.bits_eq_or {s s' : State} (h : Effect s s') :
    ∃ m, s'.tracker.filter.bits = s.tracker.filter.bits ||| m := by
  cases h with
  | commit t es st m hbits => exact ⟨m, hbits⟩
  | recoverableError | raise | deliver => exact ⟨0, BitVec.or_zero.symm⟩

/-- A step that answers a next state waited, or had an effect on the state whose next line it took. -/
theorem step_effect {s s' : State} (h : step s = .next s') : s' = s ∨ ∃ rest, Effect (s.setInput rest) s' := by
  obtain ⟨-, ⟨-, rfl⟩ | ⟨line, rest, -, he⟩⟩ := step_cases h
  · exact .inl rfl
  · exact .inr ⟨rest, exec_effect he⟩

theorem step_config_eq {s s' : State} (h : step s = .next s') : s'.config = s.config := by
  obtain rfl | ⟨rest, he⟩ := step_effect h
  · rfl
  · exact he.config_eq

theorem step_bits_eq_or {s s' : State} (h : step s = .next s') :
    ∃ m, s'.tracker.filter.bits = s.tracker.filter.bits ||| m := by
  obtain rfl | ⟨rest, he⟩ := step_effect h
  · exact ⟨0, BitVec.or_zero.symm⟩
  · exact he.bits_eq_or

theorem run_config_eq : ∀ (n : Nat) (s s' : State), run n s = .next s' → s'.config = s.config :=
  run_induction (fun _ => rfl) fun _ _ _ hstep ih => ih.trans (step_config_eq hstep)

/-- R23's accumulation along a run: the register at its end is the register at its start with bits added. -/
theorem run_bits_eq_or : ∀ (n : Nat) (s s' : State), run n s = .next s' →
    ∃ m, s'.tracker.filter.bits = s.tracker.filter.bits ||| m := by
  refine run_induction (fun _ => ⟨0, BitVec.or_zero.symm⟩) ?_
  intro s t u hstep ⟨m₂, hu⟩
  obtain ⟨m₁, ht⟩ := step_bits_eq_or hstep
  exact ⟨m₁ ||| m₂, by rw [hu, ht, BitVec.or_assoc]⟩

/-- Bits that have only been added to are all still set. -/
theorem and_not_or_eq_zero (x m : Word32) : x &&& ~~~(x ||| m) = 0 := by
  rw [BitVec.not_or, ← BitVec.and_assoc, BitVec.and_not_self]
  exact BitVec.zero_and

end Sys2Proof.Machine

namespace Sys2Proof.Proofs

open Sys2Proof.Machine

/-- Settles O47: every step OR-accumulates into the register, so a run does. -/
theorem bitsAreNeverClearedAlongARun : Obligations.BitsAreNeverClearedAlongARun := by
  intro n s s' h
  obtain ⟨m, hm⟩ := run_bits_eq_or n s s' h
  rw [hm]
  exact and_not_or_eq_zero _ m

/-- Settles O48: none of the four effects of an instruction writes the configuration, nor does taking a line. -/
theorem configurationIsNeverWritten : Obligations.ConfigurationIsNeverWritten :=
  ⟨fun _ _ _ h => (exec_effect h).config_eq, run_config_eq⟩

end Sys2Proof.Proofs
end

section
/-!
PROOFS. A line and its argument (spec/30_encoding.md): the cut at the first space (R49), the verbs outside the table (R53)
and the range check of ParseArg (R57).
-/
namespace Sys2Proof

/-- R49's recursive cut in closed form: the characters before the first space, and those after it. -/
theorem split_eq_takeWhile_dropWhile (line : Line) :
    split line = (line.takeWhile (fun c => c != ' '), (line.dropWhile (fun c => c != ' ')).drop 1) := by
  induction line with
  | nil => rfl
  | cons c cs ih =>
    by_cases hc : c = space
    · rw [hc, split_cons_space]
      rfl
    · have hb : (c != ' ') = true := bne_iff_ne.mpr hc
      rw [split_cons_ne cs hc, ih]
      simp [hb]

theorem split_append_space {verb : Line} (hverb : ' ' ∉ verb) (rest : Line) :
    split (verb ++ ' ' :: rest) = (verb, rest) := by
  have hne : ∀ c ∈ verb, (c != ' ') = true := fun c hc => bne_iff_ne.mpr (ne_of_mem_of_not_mem hc hverb)
  rw [split_eq_takeWhile_dropWhile, List.takeWhile_append_of_pos hne, List.dropWhile_append_of_pos hne]
  simp

theorem split_of_no_space {line : Line} (hline : ' ' ∉ line) : split line = (line, []) := by
  have hne : ∀ c ∈ line, (c != ' ') = true := fun c hc => bne_iff_ne.mpr (ne_of_mem_of_not_mem hc hline)
  rw [split_eq_takeWhile_dropWhile, List.takeWhile_eq_self_iff.mpr hne, List.dropWhile_eq_nil_iff.mpr hne]
  rfl

/-- The match on the verb is exact (R52), so a verb outside the table falls through to the Invalid command. -/
theorem decode_of_unknown_verb {line : Line} (h : (split line).1 ∉ [verbUsage, verbLog, verbQuery]) :
    decode line = .invalid invalidReason := by
  simp only [List.mem_cons, List.not_mem_nil, or_false, not_or] at h
  obtain ⟨husage, hlog, hquery⟩ := h
  simp [decode, husage, hlog, hquery]

end Sys2Proof

namespace Sys2Proof.Machine

/-- R57's range check only filters the parser's value; it never changes it. -/
theorem parseArg_eq_filter (c : Config) (arg : Line) :
    parseArg c arg = (argParse c arg).filter (fun n => decide (c.argMin ≤ n ∧ n ≤ c.argMax)) := by
  unfold parseArg
  cases argParse c arg <;> simp [Option.filter]

end Sys2Proof.Machine

namespace Sys2Proof.Proofs

open Sys2Proof.Machine

/-- Settles O3: the cut in closed form, on a line with a space after the verb and on a line without any. -/
theorem splitCutsAtTheFirstSpace : Obligations.SplitCutsAtTheFirstSpace :=
  ⟨fun _ rest hverb => split_append_space hverb rest, fun _ hline => split_of_no_space hline⟩

/-- Settles O5: the verb of each of these lines, read off by R49's cut, is none of the three in the table. -/
theorem unknownVerbsDecodeToInvalid : Obligations.UnknownVerbsDecodeToInvalid := by
  refine ⟨fun line hline => ?_, ?_, fun line => ?_, fun verb hverb => ?_⟩
  · exact decode_of_unknown_verb (by rwa [split_eq_takeWhile_dropWhile])
  · exact decode_of_unknown_verb (by decide)
  · have hverb : (split (' ' :: line)).1 = [] := congrArg Prod.fst (split_cons_space line)
    exact decode_of_unknown_verb (by rw [hverb]; decide)
  · have hspace : ' ' ∉ verb := by revert verb; decide
    have hunknown : verb ∉ [verbUsage, verbLog, verbQuery] := by revert verb; decide
    exact ⟨decode_of_unknown_verb (by rwa [split_of_no_space hspace]),
      fun rest => decode_of_unknown_verb (by rwa [split_append_space hspace])⟩

/-- Settles O8: ParseArg is the parser's value filtered by the range, and both clauses say what a filter gives. -/
theorem parseArgChecksTheRange : Obligations.ParseArgChecksTheRange := by
  refine ⟨fun c arg v => ?_, fun c arg => ?_⟩
  · rw [parseArg_eq_filter, Option.filter_eq_some_iff, decide_eq_true_iff]
  · simp only [parseArg_eq_filter, Option.filter_eq_none_iff, decide_eq_true_iff]

end Sys2Proof.Proofs
end

section
/-!
PROOFS. The MatrixHasher (spec/42_matrix_hasher.md): each bit of a product is a parity over the value's low 64 bits (R75),
and both products fit in five bits (R77).
-/
namespace Sys2Proof.Machine

theorem toBits_eq_map_testBit (v w : Nat) :
    toBits v w = (List.range w).map (fun i => v.testBit (w - 1 - i)) :=
  List.ext_getElem (by simp [toBits_length]) fun i h _ => by simp [toBits_getElem v w i h]

/-- Bits of the value beyond the width do not matter (R63). -/
theorem toBits_mod_two_pow (v w : Nat) : toBits (v % 2 ^ w) w = toBits v w := by
  rw [toBits_eq_map_testBit, toBits_eq_map_testBit]
  refine List.map_congr_left fun i hi => ?_
  have hlt : w - 1 - i < w := by have := List.mem_range.mp hi; omega
  simp [Nat.testBit_mod_two_pow, hlt]

/-- The parity of R75 counts the columns where the row and the value both have a 1. -/
theorem rowParity_toBits (row : BitVec 64) (n : Nat) :
    rowParity row (toBits n 64) =
      decide ((List.range 64).countP (fun j => row.getLsbD (63 - j) && n.testBit (63 - j)) % 2 = 1) := by
  rw [rowParity, popcountList, rowBits, toBits_eq_map_testBit, List.zipWith_map, List.zipWith_self, List.countP_map]
  rfl

/-- Row `i` gives bit `4 - i` of the product (R75). -/
theorem matmul_testBit (h : BitMatrix) (v : List Bit) (i : Nat) (hi : i < (matrixRows h).length) :
    (matmul h v).testBit (4 - i) = rowParity (matrixRows h)[i] v := by
  have hlen : ((matrixRows h).map (fun row => rowParity row v)).length = 5 := rfl
  have hidx : 5 - 1 - (4 - i) = i := by have : i < 5 := hi; omega
  rw [matmul, fromBits_testBit _ _ (by omega), List.getElem_map]
  simp only [hlen, hidx]

theorem entry_eq_getLsbD (h : BitMatrix) (i j : Nat) (hi : i < (matrixRows h).length) :
    entry h i j = (matrixRows h)[i].getLsbD (63 - j) := by
  rw [entry, List.getElem?_eq_getElem hi]

/-- R75 for one matrix: every bit of its product with the value, by the matrix's entries and the value's bits. -/
theorem matmul_toBits_testBit (h : BitMatrix) (n i : Nat) (hi : i < 5) :
    (matmul h (toBits n 64)).testBit (4 - i) =
      decide ((List.range 64).countP (fun j => entry h i j && n.testBit (63 - j)) % 2 = 1) := by
  rw [matmul_testBit h _ i hi, rowParity_toBits]
  simp only [entry_eq_getLsbD h i _ hi]

theorem matmul_toBits_zero (h : BitMatrix) : matmul h (toBits 0 64) = 0 := by
  have hrow : ∀ row : BitVec 64, rowParity row (toBits 0 64) = false := fun row => by
    simp [rowParity_toBits]
  simp [matmul, matrixRows, hrow, fromBits]

theorem matrixHash_mod_two_pow (c : Config) (n : Nat) : matrixHash c (n % 2 ^ 64) = matrixHash c n := by
  simp only [matrixHash, toBits_mod_two_pow]

theorem matrixHash_zero (c : Config) : matrixHash c 0 = ⟨0, 0⟩ := by
  simp only [matrixHash, matmul_toBits_zero]

theorem exec_matrixHash_natCast (n : Nat) (s : State) :
    exec (.matrixHash n) s = .next (s.deliver (.pair (matrixHash s.config n))) := by
  simp only [exec, execMatrixHash, natural_natCast]

theorem exec_matrixHash_of_neg {v : Int} (hv : v < 0) (s : State) :
    exec (.matrixHash v) s = .refused .hashNegValue := by
  simp only [exec, execMatrixHash, natural_eq_none.mpr hv]

/-- The MatrixHasher answers a next state only on a natural, and then delivers that natural's pair (R75, R111). -/
theorem exec_matrixHash_cases {v : Int} {s s' : State} (h : exec (.matrixHash v) s = .next s') :
    ∃ n : Nat, v = n ∧ s' = s.deliver (.pair (matrixHash s.config n)) := by
  rcases lt_or_ge v 0 with hv | hv
  · rw [exec_matrixHash_of_neg hv] at h
    cases h
  · lift v to Nat using hv
    rw [exec_matrixHash_natCast] at h
    cases h
    exact ⟨v, rfl, rfl⟩

end Sys2Proof.Machine

namespace Sys2Proof.Proofs

open Sys2Proof.Machine

/-- Settles O15: the products bit by bit, the truncation by `toBits`, the value 0 and the refusal, each by its lemma. -/
theorem matrixHasherMultipliesOverGF2 : Obligations.MatrixHasherMultipliesOverGF2 := by
  refine ⟨fun n s => ⟨⟨_, _, exec_matrixHash_natCast n s, matmul_lt _ _, matmul_lt _ _,
    matmul_toBits_testBit s.config.h1 n, matmul_toBits_testBit s.config.h2 n⟩, ?_⟩, fun s => ?_,
    fun _ s hv => exec_matrixHash_of_neg hv s⟩
  · rw [exec_matrixHash_natCast, exec_matrixHash_natCast, matrixHash_mod_two_pow]
  · have h0 := exec_matrixHash_natCast 0 s
    rw [matrixHash_zero] at h0
    exact h0

/-- Settles O16: the only next state holds two products, and a product of five rows lies below 32. -/
theorem matrixPositionsNeedNoReduction : Obligations.MatrixPositionsNeedNoReduction := by
  intro v s s' h
  obtain ⟨n, -, rfl⟩ := exec_matrixHash_cases h
  have hp := matmul_lt s.config.h1 (toBits n 64)
  have hq := matmul_lt s.config.h2 (toBits n 64)
  exact ⟨_, _, rfl, Nat.le_of_lt_succ hp, Nat.le_of_lt_succ hq, Nat.mod_eq_of_lt hp, Nat.mod_eq_of_lt hq⟩

end Sys2Proof.Proofs
end

section
/-!
PROOFS. The BloomFilter's insertion and refresh (spec/43_bloom_filter.md): the bits an insertion sets (R84), what the two
units answer (R84, R86, R111), and the accumulation along any sequence of insertions (R87).
-/
namespace Sys2Proof.Machine

/-- Bit `i` after an insertion: set before, or selected by some position's reduction (R84, R72). -/
theorem insert_bits_getLsbD_eq_true {f : Filter} {ps : List Nat} {i : Nat} :
    (insert f ps).bits.getLsbD i = true ↔ f.bits.getLsbD i = true ∨ ∃ p ∈ ps, p % 32 = i := by
  simp only [insert, BitVec.getLsbD_or, mask_getLsbD, Bool.or_eq_true, List.any_eq_true, decide_eq_true_iff]

theorem exec_insert_natCast (f : Filter) (ps : List Nat) (s : State) :
    exec (.insert f (ps.map (fun p : Nat => (p : Int)))) s = .next (s.deliver (.filter (insert f ps))) := by
  simp only [exec, execInsert, naturals_natCast]

theorem exec_insert_of_neg {ps : List Int} (hneg : ∃ p ∈ ps, p < 0) (f : Filter) (s : State) :
    exec (.insert f ps) s = .refused .maskNegPosition := by
  simp only [exec, execInsert, naturals_eq_none.mpr hneg]

/-- A sequence of insertions only adds bits to the register (R84, R87). -/
theorem foldl_insert_bits_eq_or (calls : List (List Nat)) (f : Filter) :
    ∃ m, (calls.foldl insert f).bits = f.bits ||| m := by
  induction calls generalizing f with
  | nil => exact ⟨0, BitVec.or_zero.symm⟩
  | cons ps calls ih =>
    obtain ⟨m, hm⟩ := ih (insert f ps)
    exact ⟨mask ps ||| m, hm.trans (BitVec.or_assoc _ _ _)⟩

end Sys2Proof.Machine

namespace Sys2Proof.Proofs

open Sys2Proof.Machine

/-- Settles O20: the unit delivers the model's `insert` of the naturals, whose bits and members have their own lemmas. -/
theorem insertSetsBitsAndNewlySet : Obligations.InsertSetsBitsAndNewlySet :=
  ⟨fun f ps s => ⟨_, exec_insert_natCast f ps s, fun _ _ => insert_bits_getLsbD_eq_true, fun _ => mem_dedup⟩,
    fun f _ s hneg => exec_insert_of_neg hneg f s⟩

/-- Settles O25: the calls together only add a mask, so no bit of the first register is missing from the last. -/
theorem insertionsNeverClearABit : Obligations.InsertionsNeverClearABit := by
  refine ⟨fun f calls => ?_, fun _ => rfl⟩
  obtain ⟨m, hm⟩ := foldl_insert_bits_eq_or calls f
  rw [hm]
  exact and_not_or_eq_zero _ m

/-- Settles O22: `refresh` has no contract to check, so the unit's one arm is the answer. -/
theorem refreshKeepsBitsAndClearsNewlySet : Obligations.RefreshKeepsBitsAndClearsNewlySet :=
  fun _ _ => rfl

end Sys2Proof.Proofs
end

section
/-!
PROOFS. The commands (spec/44_commands.md): `usage` whatever follows its verb (R94), the two recoverable errors (R93, R97),
and the line that every command takes (R98).
-/
namespace Sys2Proof

theorem decode_of_usage_verb {line : Line} (h : (split line).1 = verbUsage) : decode line = .usage := by
  simp only [decode, h, if_pos]

end Sys2Proof

namespace Sys2Proof.Machine

theorem exec_usage (s : State) : exec .usage s = .next (s.commit s.tracker [.usage s.config.usageText] .ok) := rfl

theorem exec_invalid (reason : Line) (s : State) :
    exec (.invalid reason) s = .next (s.recoverableError (.errCommand reason) .cmdErr) := rfl

/-- A parse failure ends the command before what is particular to `log` or `query` runs (R93). -/
theorem withArgument_of_parse_failure {arg : Line} {s : State} (h : parseArg s.config arg = none)
    (run : Nat → Result) : withArgument arg s run = .next (s.recoverableError (.errArgument arg) .argErr) := by
  simp only [withArgument, h]

/-- No instruction takes or adds a line itself: only the fetch does. -/
theorem Effect.input_eq {s s' : State} (h : Effect s s') : s'.input = s.input := by
  cases h <;> rfl

end Sys2Proof.Machine

namespace Sys2Proof.Proofs

open Sys2Proof.Machine

/-- Settles O44: the step fetches the line, and none of the four effects of its instruction touches those left. -/
theorem everyCommandTakesExactlyItsLine : Obligations.EveryCommandTakesExactlyItsLine := by
  intro s s' line rest hinput h
  obtain ⟨-, ⟨hnil, -⟩ | ⟨line', rest', hcons, he⟩⟩ := step_cases h
  · cases hinput.symm.trans hnil
  · cases hinput.symm.trans hcons
    exact (exec_effect he).input_eq

/-- Settles O27: the commit rewrites the tracker state with itself, and R49's cut gives the verb of both kinds of line. -/
theorem usageEmitsTheHelpText : Obligations.UsageEmitsTheHelpText := by
  have hspace : ' ' ∉ verbUsage := by decide
  refine ⟨exec_usage, decode_of_usage_verb ?_, fun rest => decode_of_usage_verb ?_⟩
  · exact congrArg Prod.fst (split_of_no_space hspace)
  · exact congrArg Prod.fst (split_append_space hspace rest)

/-- Settles O28: the Invalid command is the recoverable error of its reason, and an unknown verb decodes to it. -/
theorem invalidReportsAndWritesNothing : Obligations.InvalidReportsAndWritesNothing := by
  refine ⟨exec_invalid, fun line s hverb => ?_⟩
  have hdecode : decode line = .invalid invalidReason :=
    decode_of_unknown_verb (by rwa [split_eq_takeWhile_dropWhile])
  rw [hdecode]
  exact exec_invalid invalidReason s

/-- Settles O29: `log` and `query` share the parse, so they share its failure. -/
theorem unparsedArgumentIsRecoverable : Obligations.UnparsedArgumentIsRecoverable :=
  fun _ _ h => ⟨withArgument_of_parse_failure h _, withArgument_of_parse_failure h _⟩

end Sys2Proof.Proofs
end

section
/-!
PROOFS. No command resets or clears the filter (spec/70_reset_and_hazards.md R119): the verb `reset` runs as the Invalid
command, and every instruction only adds bits to the register.
-/
namespace Sys2Proof.Machine

/-- The step on a waiting line executes what the line decodes to, on the state that has the line taken (R90). -/
theorem step_cons {s : State} {line : Line} {rest : List Line} (hfault : s.fault = none)
    (hinput : s.input = line :: rest) : step s = exec (decode line) (s.setInput rest) := by
  simp only [step, hfault, fetch_cons hinput]

end Sys2Proof.Machine

namespace Sys2Proof.Proofs

open Sys2Proof.Machine

/-- R53's case of the verb `reset`, alone or before a space and any rest. -/
theorem decode_of_reset_verb {line : Line} (h : line = "reset".toList ∨ ∃ rest, line = "reset ".toList ++ rest) :
    decode line = .invalid invalidReason := by
  obtain ⟨-, -, -, hverbs⟩ := unknownVerbsDecodeToInvalid
  obtain ⟨halone, hrest⟩ := hverbs "reset".toList List.mem_cons_self
  obtain rfl | ⟨rest, rfl⟩ := h
  · exact halone
  · exact hrest rest

/-- Settles O50: `reset` steps as the Invalid command, and each of the four effects only adds bits to the register. -/
theorem resetVerbClearsNothing : Obligations.ResetVerbClearsNothing := by
  refine ⟨fun s line lines hfault hreset hinput => ?_, fun i s s' k h hk => ?_⟩
  · rw [step_cons hfault hinput, decode_of_reset_verb hreset]
    exact exec_invalid invalidReason (s.setInput lines)
  · obtain ⟨m, hm⟩ := (exec_effect h).bits_eq_or
    rw [hm, BitVec.getLsbD_or, hk, Bool.true_or]

end Sys2Proof.Proofs
end

section
/-!
PROOFS. What an instruction does, said exactly: one equation per way a command can end (spec/44_commands.md), and the
completions of any instruction by constructor. Later proofs cite these.
-/
namespace Sys2Proof

/-- The two commands that take an argument (R55). -/
def Instr.HasArgument (i : Instr) (arg : Line) : Prop := i = .log arg ∨ i = .query arg

end Sys2Proof

namespace Sys2Proof.Machine

/-- The state after an accepted `log` of `n` (R95). -/
def State.afterLog (n : Nat) (s : State) : State :=
  s.commit
    { filter := insert s.tracker.filter [(hash s.config n).position1, (hash s.config n).position2]
      lastHash := some (hash s.config n) }
    [.hash (hash s.config n).position1 (hash s.config n).position2] .ok

/-- The verdict that a `query` of `n` reports (R96). -/
def State.queryVerdict (n : Nat) (s : State) : Verdict :=
  verdictOf (has s.tracker.filter [(hash s.config n).position1, (hash s.config n).position2])

/-- The state after an accepted `query` of `n` (R96). -/
def State.afterQuery (n : Nat) (s : State) : State :=
  s.commit
    { filter := refresh s.tracker.filter
      lastHash := lastHashAfterQuery s.config (hash s.config n) s.tracker.lastHash }
    [.hash (hash s.config n).position1 (hash s.config n).position2, .verdict (s.queryVerdict n)] .ok

section
variable (n : Nat) (s : State)

@[simp] theorem State.afterLog_tracker : (s.afterLog n).tracker =
    { filter := insert s.tracker.filter [(hash s.config n).position1, (hash s.config n).position2]
      lastHash := some (hash s.config n) } := rfl
@[simp] theorem State.afterLog_fault : (s.afterLog n).fault = s.fault := rfl
@[simp] theorem State.afterLog_config : (s.afterLog n).config = s.config := rfl
@[simp] theorem State.afterLog_input : (s.afterLog n).input = s.input := rfl
@[simp] theorem State.afterLog_output : (s.afterLog n).output =
    s.output ++ [.hash (hash s.config n).position1 (hash s.config n).position2] := rfl
@[simp] theorem State.afterLog_statuses : (s.afterLog n).statuses = s.statuses ++ [.ok] := rfl
@[simp] theorem State.afterLog_unitOut : (s.afterLog n).unitOut = s.unitOut := rfl

@[simp] theorem State.afterQuery_tracker : (s.afterQuery n).tracker =
    { filter := refresh s.tracker.filter
      lastHash := lastHashAfterQuery s.config (hash s.config n) s.tracker.lastHash } := rfl
@[simp] theorem State.afterQuery_fault : (s.afterQuery n).fault = s.fault := rfl
@[simp] theorem State.afterQuery_config : (s.afterQuery n).config = s.config := rfl
@[simp] theorem State.afterQuery_input : (s.afterQuery n).input = s.input := rfl
@[simp] theorem State.afterQuery_output : (s.afterQuery n).output = s.output ++
    [.hash (hash s.config n).position1 (hash s.config n).position2, .verdict (s.queryVerdict n)] := rfl
@[simp] theorem State.afterQuery_statuses : (s.afterQuery n).statuses = s.statuses ++ [.ok] := rfl
@[simp] theorem State.afterQuery_unitOut : (s.afterQuery n).unitOut = s.unitOut := rfl

end

theorem withArgument_of_negative {arg : Line} {s : State} {v : Int} (h : parseArg s.config arg = some v) (hv : v < 0)
    (run : Nat → Result) : withArgument arg s run = .next (s.raise (.negArg arg)) := by
  simp only [withArgument, h, natural_eq_none.mpr hv]

theorem withArgument_of_natural {arg : Line} {s : State} {n : Nat} (h : parseArg s.config arg = some (n : Int))
    (run : Nat → Result) : withArgument arg s run = run n := by
  simp only [withArgument, h, natural_natCast]

theorem exec_log_natCast {arg : Line} {s : State} {n : Nat} (h : parseArg s.config arg = some (n : Int)) :
    exec (.log arg) s = .next (s.afterLog n) :=
  withArgument_of_natural h _

theorem exec_query_natCast {arg : Line} {s : State} {n : Nat} (h : parseArg s.config arg = some (n : Int)) :
    exec (.query arg) s = .next (s.afterQuery n) :=
  withArgument_of_natural h _

theorem exec_of_parse_failure {i : Instr} {arg : Line} {s : State} (hi : i.HasArgument arg)
    (h : parseArg s.config arg = none) : exec i s = .next (s.recoverableError (.errArgument arg) .argErr) := by
  obtain rfl | rfl := hi <;> exact withArgument_of_parse_failure h _

theorem exec_of_negative {i : Instr} {arg : Line} {s : State} {v : Int} (hi : i.HasArgument arg)
    (h : parseArg s.config arg = some v) (hv : v < 0) : exec i s = .next (s.raise (.negArg arg)) := by
  obtain rfl | rfl := hi <;> exact withArgument_of_negative h hv _

/-- The ways in which an instruction can answer a next state, each with the condition under which it does. -/
inductive Completion (s : State) : Instr → State → Prop
  | usage : Completion s .usage (s.commit s.tracker [.usage s.config.usageText] .ok)
  | invalid (reason : Line) : Completion s (.invalid reason) (s.recoverableError (.errCommand reason) .cmdErr)
  | parseFailure {i : Instr} {arg : Line} (hi : i.HasArgument arg) (hparse : parseArg s.config arg = none) :
      Completion s i (s.recoverableError (.errArgument arg) .argErr)
  | negative {i : Instr} {arg : Line} {v : Int} (hi : i.HasArgument arg)
      (hparse : parseArg s.config arg = some v) (hv : v < 0) : Completion s i (s.raise (.negArg arg))
  | log {arg : Line} {n : Nat} (hparse : parseArg s.config arg = some (n : Int)) :
      Completion s (.log arg) (s.afterLog n)
  | query {arg : Line} {n : Nat} (hparse : parseArg s.config arg = some (n : Int)) :
      Completion s (.query arg) (s.afterQuery n)
  | unit {i : Instr} (hi : i.isLine = false) (v : UnitValue) : Completion s i (s.deliver v)

theorem exec_completion {i : Instr} {s s' : State} (h : exec i s = .next s') : Completion s i s' := by
  cases i with
  | usage => cases h; exact .usage
  | invalid reason => cases h; exact .invalid reason
  | log arg =>
    rcases execLog_cases h with ⟨hp, rfl⟩ | ⟨v, hp, hv, rfl⟩ | ⟨n, hp, rfl⟩
    · exact .parseFailure (.inl rfl) hp
    · exact .negative (.inl rfl) hp hv
    · exact .log hp
  | query arg =>
    rcases execQuery_cases h with ⟨hp, rfl⟩ | ⟨v, hp, hv, rfl⟩ | ⟨n, hp, rfl⟩
    · exact .parseFailure (.inr rfl) hp
    · exact .negative (.inr rfl) hp hv
    · exact .query hp
  | toBits | fromBits | shiftHash | matrixHash | mask | dedup | insert | has | refresh =>
    obtain ⟨v, rfl⟩ := exec_unit_cases rfl h
    exact .unit rfl v

/-- A command always answers a next state (R54, R101, R109). -/
theorem exec_line_next {i : Instr} (hi : i.isLine = true) (s : State) : ∃ s', exec i s = .next s' := by
  cases i with
  | usage => exact ⟨_, rfl⟩
  | invalid reason => exact ⟨_, rfl⟩
  | log arg =>
    rcases withArgument_cases arg s _ with ⟨-, e⟩ | ⟨v, -, -, e⟩ | ⟨n, -, e⟩ <;> exact ⟨_, e⟩
  | query arg =>
    rcases withArgument_cases arg s _ with ⟨-, e⟩ | ⟨v, -, -, e⟩ | ⟨n, -, e⟩ <;> exact ⟨_, e⟩
  | toBits | fromBits | shiftHash | matrixHash | mask | dedup | insert | has | refresh => cases hi

end Sys2Proof.Machine

namespace Sys2Proof

theorem decode_isLine (line : Line) : (decode line).isLine = true := by
  rcases decode_cases line with h | ⟨a, h⟩ | ⟨a, h⟩ | h <;> rw [h] <;> rfl

theorem decode_wellFormed (line : Line) : WellFormed (decode line) := by
  rcases decode_cases line with h | ⟨a, h⟩ | ⟨a, h⟩ | h <;> rw [h] <;> rfl

theorem decode_eq_usage_iff {line : Line} : decode line = .usage ↔ (split line).1 = verbUsage := by
  refine ⟨fun h => ?_, decode_of_usage_verb⟩
  by_contra hne
  revert h
  simp only [decode, hne, if_false]
  split_ifs <;> nofun

theorem decode_eq_log_iff {line arg : Line} :
    decode line = .log arg ↔ (split line).1 = verbLog ∧ arg = (split line).2 := by
  simp only [decode]
  split_ifs with husage hlog hquery
  · simp [husage, verbUsage, verbLog]
  · simp [hlog, eq_comm]
  · simp [hlog]
  · simp [hlog]

theorem decode_eq_query_iff {line arg : Line} :
    decode line = .query arg ↔ (split line).1 = verbQuery ∧ arg = (split line).2 := by
  simp only [decode]
  split_ifs with husage hlog hquery
  · simp [husage, verbUsage, verbQuery]
  · simp [hlog, verbLog, verbQuery]
  · simp [hquery, eq_comm]
  · simp [hquery]

end Sys2Proof

namespace Sys2Proof.Proofs

open Sys2Proof.Machine

/-- Settles O2: the encoder writes the verb, one space and the argument, and R49's cut takes them apart again. -/
theorem decodeOfEncodeIsTheCommand : Obligations.DecodeOfEncodeIsTheCommand := by
  intro i hline hwf
  cases i with
  | usage => exact ⟨_, rfl, by decide⟩
  | log arg =>
    have hcut := split_append_space (verb := verbLog) (by decide) arg
    exact ⟨_, rfl, decode_eq_log_iff.mpr ⟨congrArg Prod.fst hcut, (congrArg Prod.snd hcut).symm⟩⟩
  | query arg =>
    have hcut := split_append_space (verb := verbQuery) (by decide) arg
    exact ⟨_, rfl, decode_eq_query_iff.mpr ⟨congrArg Prod.fst hcut, (congrArg Prod.snd hcut).symm⟩⟩
  | invalid reason =>
    obtain rfl : reason = invalidReason := beq_iff_eq.mp hwf
    exact ⟨[], rfl, by decide⟩
  | toBits | fromBits | shiftHash | matrixHash | mask | dedup | insert | has | refresh => cases hline

/-- Settles O4: R49's cut in closed form gives verb and rest, and `decode` compares the verb with each of the three. -/
theorem knownVerbsDecodeWithTheirRest : Obligations.KnownVerbsDecodeWithTheirRest := by
  intro line
  have hcut := split_eq_takeWhile_dropWhile line
  refine ⟨decode_eq_usage_iff.trans ?_, fun arg => decode_eq_log_iff.trans ?_,
    fun arg => decode_eq_query_iff.trans ?_⟩ <;> rw [hcut] <;> rfl

/-- Settles O6: every line decodes to one of the four commands, and a unit has no row in the encoder. -/
theorem noLineSelectsAUnit : Obligations.NoLineSelectsAUnit := by
  refine ⟨fun line => ⟨decode_isLine line, decode_wellFormed line⟩, fun i hi => ?_⟩
  cases i with
  | usage | log | query | invalid => cases hi
  | toBits | fromBits | shiftHash | matrixHash | mask | dedup | insert | has | refresh => rfl

end Sys2Proof.Proofs
end

section
/-!
PROOFS. The display invariant (spec/10_state.md R19, R20): every way a command ends keeps it, and it holds after a reset.
-/
namespace Sys2Proof.Machine

/-- The tracker state after an accepted `log` meets the invariant, whatever it was before (R95). -/
theorem displayInv_afterLog (n : Nat) (s : State) : DisplayInv (s.afterLog n).tracker :=
  .inr ⟨hash s.config n, rfl, rfl, fun p hp =>
    insert_bits_getLsbD_eq_true.mpr (.inr ⟨p, mem_dedup.mp hp, rfl⟩)⟩

theorem Completion.displayInv {s s' : State} {i : Instr} (h : Completion s i s') (hinv : DisplayInv s.tracker) :
    DisplayInv s'.tracker := by
  cases h with
  | usage | invalid | parseFailure | negative | unit => exact hinv
  | log => exact displayInv_afterLog _ s
  | query => exact .inl rfl

theorem displayInv_resetWith (c : Config) : DisplayInv (State.resetWith c).tracker := .inl rfl

theorem cellOn_readout (s : State) (i : Fin 32) :
    s.readout.cellOn i = s.tracker.filter.bits.getLsbD i.val := rfl

theorem cellJustFlipped_readout {s : State} {i : Fin 32} :
    s.readout.cellJustFlipped i = true ↔ ∃ p ∈ s.tracker.filter.newlySet, p % 32 = i.val := by
  simp [Readout.cellJustFlipped, State.readout]

end Sys2Proof.Machine

namespace Sys2Proof.Proofs

open Sys2Proof.Machine

/-- Settles O52: a log establishes the invariant, a query empties `newlySet`, and nothing else writes the tracker state. -/
theorem displayInvariantIsKept : Obligations.DisplayInvariantIsKept := by
  intro s s' hinv h
  obtain ⟨-, ⟨-, rfl⟩ | ⟨line, rest, -, hexec⟩⟩ := step_cases h
  · exact hinv
  · exact (exec_completion hexec).displayInv hinv

/-- Settles O53: a reset leaves `newlySet` empty. -/
theorem displayInvariantHoldsAtReset : Obligations.DisplayInvariantHoldsAtReset :=
  ⟨displayInv_resetWith, displayInv_resetWith _⟩

/-- Settles O54: the entry of `newlySet` that reduces to the cell selects a register bit that the invariant says is set. -/
theorem justFlippedCellsAreOn : Obligations.JustFlippedCellsAreOn := by
  intro s i hinv hflipped
  obtain ⟨p, hp, hcell⟩ := cellJustFlipped_readout.mp hflipped
  rcases hinv with hempty | ⟨-, -, -, hset⟩
  · rw [hempty] at hp
    cases hp
  · rw [cellOn_readout, ← hcell]
    exact hset p hp

end Sys2Proof.Proofs
end

section
/-!
PROOFS. What a run makes of the register and of the waiting lines (spec/44_commands.md section 3;
spec/70_reset_and_hazards.md section 4).
-/
namespace Sys2Proof.Machine

theorem verdictOf_eq_possiblyPresent {b : Bool} : verdictOf b = .possiblyPresent ↔ b = true := by
  cases b <;> simp [verdictOf]

/-- Membership of a pair: both reduced bits are set (R85). -/
theorem has_pair {f : Filter} {p q : Nat} :
    has f [p, q] = true ↔ f.bits.getLsbD (p % 32) = true ∧ f.bits.getLsbD (q % 32) = true := by
  simp [has_eq_true]

theorem queryVerdict_eq_possiblyPresent {n : Nat} {s : State} :
    s.queryVerdict n = .possiblyPresent ↔
      s.tracker.filter.bits.getLsbD ((hash s.config n).position1 % 32) = true ∧
        s.tracker.filter.bits.getLsbD ((hash s.config n).position2 % 32) = true :=
  verdictOf_eq_possiblyPresent.trans has_pair

theorem afterQuery_output_getLast? (n : Nat) (s : State) :
    (s.afterQuery n).output.getLast? = some (.verdict (s.queryVerdict n)) := by
  simp

theorem getLsbD_of_eq_or {x y m : Word32} (h : y = x ||| m) {k : Nat} (hk : x.getLsbD k = true) :
    y.getLsbD k = true := by
  rw [h, BitVec.getLsbD_or, hk, Bool.true_or]

/-- A bit set before a run is set after it (R23). -/
theorem run_keeps_bit {n : Nat} {s s' : State} (h : run n s = .next s') {k : Nat}
    (hk : s.tracker.filter.bits.getLsbD k = true) : s'.tracker.filter.bits.getLsbD k = true := by
  obtain ⟨m, hm⟩ := run_bits_eq_or n s s' h
  exact getLsbD_of_eq_or hm hk

/-- A command that logs a value one of whose positions reduces to `k` (R95). -/
def SetsBit (c : Config) (k : Nat) (i : Instr) : Prop :=
  ∃ (arg : Line) (n : Nat), i = .log arg ∧ parseArg c arg = some (n : Int) ∧
    ((hash c n).position1 % 32 = k ∨ (hash c n).position2 % 32 = k)

/-- Only an accepted `log` has an effect on the register. -/
theorem Completion.bits_eq {s s' : State} {i : Instr} (h : Completion s i s') :
    s'.tracker.filter.bits = s.tracker.filter.bits ∨
      ∃ (arg : Line) (n : Nat), i = .log arg ∧ parseArg s.config arg = some (n : Int) ∧ s' = s.afterLog n := by
  cases h with
  | usage | invalid | parseFailure | negative | query | unit => exact .inl rfl
  | log hparse => exact .inr ⟨_, _, rfl, hparse, rfl⟩

theorem afterLog_bits_getLsbD {n k : Nat} {s : State} :
    (s.afterLog n).tracker.filter.bits.getLsbD k = true ↔
      s.tracker.filter.bits.getLsbD k = true ∨
        (hash s.config n).position1 % 32 = k ∨ (hash s.config n).position2 % 32 = k :=
  insert_bits_getLsbD_eq_true.trans (by simp)

/-- The register after any instruction, bit by bit. -/
theorem exec_bits_getLsbD {i : Instr} {s s' : State} (h : exec i s = .next s') (k : Nat) :
    s'.tracker.filter.bits.getLsbD k = true ↔
      s.tracker.filter.bits.getLsbD k = true ∨ SetsBit s.config k i := by
  constructor
  · intro hk
    obtain hbits | ⟨arg, n, rfl, hparse, rfl⟩ := (exec_completion h).bits_eq
    · exact .inl (hbits ▸ hk)
    · exact (afterLog_bits_getLsbD.mp hk).imp_right fun hpos => ⟨arg, n, rfl, hparse, hpos⟩
  · rintro (hk | ⟨arg, n, rfl, hparse, hpos⟩)
    · obtain ⟨m, hm⟩ := (exec_effect h).bits_eq_or
      exact getLsbD_of_eq_or hm hk
    · rw [exec_log_natCast hparse] at h
      cases h
      exact afterLog_bits_getLsbD.mpr (.inr hpos)

/-- A run of one step or more on a waiting line begins with the command that the line decodes to. -/
theorem run_succ_cons {n : Nat} {s s' : State} {line : Line} {rest : List Line} (hinput : s.input = line :: rest)
    (h : run (n + 1) s = .next s') :
    ∃ t, exec (decode line) (s.setInput rest) = .next t ∧ t.input = rest ∧ t.config = s.config ∧
      run n t = .next s' := by
  cases hstep : step s with
  | fault f => rw [run_succ_fault hstep] at h; cases h
  | refused r => rw [run_succ_refused hstep] at h; cases h
  | next t =>
    obtain ⟨-, ⟨hnil, -⟩ | ⟨line', rest', hcons, hexec⟩⟩ := step_cases hstep
    · cases hinput.symm.trans hnil
    · cases hinput.symm.trans hcons
      exact ⟨t, hexec, (exec_effect hexec).input_eq, (exec_effect hexec).config_eq, run_succ_next hstep ▸ h⟩

/-- The register after the waiting lines `lines` have run, bit by bit. -/
theorem run_input_bits_getLsbD (lines : List Line) {s s' : State} (hinput : s.input = lines)
    (h : run lines.length s = .next s') (k : Nat) :
    s'.tracker.filter.bits.getLsbD k = true ↔
      s.tracker.filter.bits.getLsbD k = true ∨ ∃ line ∈ lines, SetsBit s.config k (decode line) := by
  induction lines generalizing s with
  | nil => cases h; simp
  | cons line rest ih =>
    obtain ⟨t, hexec, htinput, htconfig, hrun⟩ := run_succ_cons hinput h
    rw [ih htinput hrun, exec_bits_getLsbD hexec, htconfig, List.exists_mem_cons_iff, or_assoc]
    rfl

/-- The instruction is no `log` or `query` on which R92 raises the fault. -/
def NoNegativeArgument (c : Config) (i : Instr) : Prop :=
  ∀ arg v, i.HasArgument arg → parseArg c arg = some v → 0 ≤ v

/-- A command without a negative argument records one status and leaves the fault mark alone (R101). -/
theorem Completion.status_of_noNegativeArgument {s s' : State} {i : Instr} (h : Completion s i s')
    (hline : i.isLine = true) (hneg : NoNegativeArgument s.config i) :
    s'.fault = s.fault ∧ ∃ st, s'.statuses = s.statuses ++ [st] := by
  cases h with
  | usage | invalid | parseFailure | log | query => exact ⟨rfl, _, rfl⟩
  | negative hi hparse hv => exact absurd (hneg _ _ hi hparse) (not_le.mpr hv)
  | unit hi => cases hline.symm.trans hi

/-- The run of R124 over waiting lines none of which has a negative argument. -/
theorem run_input_ends_well (lines : List Line) {s : State} (hfault : s.fault = none) (hinput : s.input = lines)
    (hneg : ∀ line ∈ lines, NoNegativeArgument s.config (decode line)) :
    ∃ s', run lines.length s = .next s' ∧ EndedWell s' ∧
      s'.statuses.length = s.statuses.length + lines.length := by
  induction lines generalizing s with
  | nil => exact ⟨s, rfl, ⟨hinput, hfault⟩, rfl⟩
  | cons line rest ih =>
    obtain ⟨t, hexec⟩ := exec_line_next (decode_isLine line) (s.setInput rest)
    obtain ⟨htfault, st, htstatuses⟩ := (exec_completion hexec).status_of_noNegativeArgument (decode_isLine line)
      (hneg line List.mem_cons_self)
    have htconfig : t.config = s.config := (exec_effect hexec).config_eq
    obtain ⟨s', hrun, hend, hcount⟩ := ih (htfault.trans hfault) (exec_effect hexec).input_eq
      fun l hl => htconfig ▸ hneg l (List.mem_cons_of_mem _ hl)
    refine ⟨s', (run_succ_next ((step_cons hfault hinput).trans hexec)).trans hrun, hend, ?_⟩
    rw [hcount, htstatuses, List.length_append, List.length_singleton, State.setInput_statuses, List.length_cons]
    omega

end Sys2Proof.Machine

namespace Sys2Proof.Proofs

open Sys2Proof.Machine

/-- Settles O55: the log sets both reduced bits, the run keeps them and the configuration, so the query finds both. -/
theorem loggedValuesStayPresent : Obligations.LoggedValuesStayPresent := by
  intro a b n k s s1 s2 hlog hexec hrun hquery
  rw [exec_log_natCast hlog] at hexec
  cases hexec
  have hconfig : s2.config = s.config := run_config_eq k (s.afterLog n) s2 hrun
  refine ⟨_, exec_query_natCast hquery, ?_⟩
  have hverdict : s2.queryVerdict n = .possiblyPresent := by
    rw [queryVerdict_eq_possiblyPresent, hconfig]
    exact ⟨run_keeps_bit hrun (afterLog_bits_getLsbD.mpr (.inr (.inl rfl))),
      run_keeps_bit hrun (afterLog_bits_getLsbD.mpr (.inr (.inr rfl)))⟩
  rw [afterQuery_output_getLast?, hverdict]

/-- Settles O56, by induction on the waiting lines. -/
theorem runsWithoutNegativeArgumentsEndWell : Obligations.RunsWithoutNegativeArgumentsEndWell :=
  fun s hfault hneg => run_input_ends_well s.input hfault rfl hneg

/-- Settles O57, by induction on the waiting lines: each step sets the bits of its own line's command. -/
theorem bitsAreExactlyThoseLogged : Obligations.BitsAreExactlyThoseLogged := by
  intro s s' i _ hrun _
  rw [run_input_bits_getLsbD s.input rfl hrun i]
  simp only [SetsBit, exists_and_left]

end Sys2Proof.Proofs
end

section
/-!
PROOFS. The effects of `log` and `query` (spec/44_commands.md section 2) for each hasher, and what repeating them does
(spec/20_memory.md section 3).
-/
namespace Sys2Proof.Machine

theorem hash_of_shift {c : Config} (h : c.hashSel = .shift) (n : Nat) : hash c n = shiftHash n := by
  simp only [hash, h]

theorem hash_of_matrix {c : Config} (h : c.hashSel = .matrix) (n : Nat) : hash c n = matrixHash c n := by
  simp only [hash, h]

/-- The whole effect of an accepted `log`, by the pair that its hasher gives (R95). -/
theorem exec_log_of_hash {arg : Line} {s : State} {n p q : Nat} (hparse : parseArg s.config arg = some (n : Int))
    (hhash : hash s.config n = ⟨p, q⟩) :
    exec (.log arg) s = .next { s with
      tracker :=
        { filter := { bits := s.tracker.filter.bits ||| mask [p, q], newlySet := if p = q then [p] else [p, q] }
          lastHash := some ⟨p, q⟩ }
      output := s.output ++ [.hash p q]
      statuses := s.statuses ++ [.ok] } := by
  rw [exec_log_natCast hparse, State.afterLog, hhash, insert, dedup_pair]
  rfl

/-- Bit `i` of a register to which the mask of a pair has been added. -/
theorem or_mask_pair_getLsbD {x : Word32} {p q i : Nat} :
    (x ||| mask [p, q]).getLsbD i = true ↔ x.getLsbD i = true ∨ p % 32 = i ∨ q % 32 = i := by
  simp [mask_getLsbD]

/-- The reduced odd position depends on the low ten bits of the value only (R73). -/
theorem shiftHash_position1_mod_32 (v : Nat) :
    (shiftHash v).position1 % 32 = (shiftHash (v % 1024)).position1 := by
  refine Nat.eq_of_testBit_eq fun k => ?_
  have hk : k < 5 ↔ 2 * k + 1 < 10 := by omega
  rw [show 32 = 2 ^ 5 by rfl, show 1024 = 2 ^ 10 by rfl]
  simp only [Nat.testBit_mod_two_pow, shiftHash_position1_testBit, hk]

/-- The reduced even position depends on the low ten bits of the value only (R73). -/
theorem shiftHash_position2_mod_32 (v : Nat) :
    (shiftHash v).position2 % 32 = (shiftHash (v % 1024)).position2 := by
  refine Nat.eq_of_testBit_eq fun k => ?_
  have hk : k < 5 ↔ 2 * k < 10 := by omega
  rw [show 32 = 2 ^ 5 by rfl, show 1024 = 2 ^ 10 by rfl]
  simp only [Nat.testBit_mod_two_pow, shiftHash_position2_testBit, hk]

/-- Where no bit is set, no query finds its value (R85). -/
theorem queryVerdict_of_bits_zero {s : State} (h : s.tracker.filter.bits = 0) (n : Nat) :
    s.queryVerdict n = .definitelyAbsent := by
  cases hv : s.queryVerdict n with
  | definitelyAbsent => rfl
  | possiblyPresent =>
    obtain ⟨hbit, -⟩ := queryVerdict_eq_possiblyPresent.mp hv
    rw [h, BitVec.ofNat_eq_ofNat, BitVec.getLsbD_zero] at hbit
    cases hbit

theorem insert_insert_self (f : Filter) (ps : List Nat) : insert (insert f ps) ps = insert f ps := by
  simp only [insert, BitVec.or_assoc, BitVec.or_self]

theorem afterLog_afterLog_tracker (n : Nat) (s : State) :
    ((s.afterLog n).afterLog n).tracker = (s.afterLog n).tracker := by
  simp only [State.afterLog_tracker, State.afterLog_config, insert_insert_self]

theorem lastHashAfterQuery_self (c : Config) (h : HashResult) (old : Option HashResult) :
    lastHashAfterQuery c h (lastHashAfterQuery c h old) = lastHashAfterQuery c h old := by
  simp only [lastHashAfterQuery]
  split_ifs <;> rfl

theorem afterQuery_afterQuery_tracker (n : Nat) (s : State) :
    ((s.afterQuery n).afterQuery n).tracker = (s.afterQuery n).tracker := by
  simp only [State.afterQuery_tracker, State.afterQuery_config, lastHashAfterQuery_self]
  rfl

end Sys2Proof.Machine

namespace Sys2Proof.Proofs

open Sys2Proof.Machine

/-- Settles O31: the general effect of `log` at the ShiftHasher's pair. -/
theorem logUnderShiftRecordsOddAndEvenBits : Obligations.LogUnderShiftRecordsOddAndEvenBits := by
  intro arg n s hsel hparse
  exact ⟨_, _, _, shiftHash_position1_testBit n, shiftHash_position2_testBit n, fun _ _ => or_mask_pair_getLsbD,
    exec_log_of_hash hparse (hash_of_shift hsel n)⟩

/-- Settles O32: the general effect of `log` at the MatrixHasher's pair, which R77 puts below 32. -/
theorem logUnderMatrixRecordsTheProducts : Obligations.LogUnderMatrixRecordsTheProducts := by
  intro arg n s hsel hparse
  have hp := matmul_lt s.config.h1 (toBits n 64)
  have hq := matmul_lt s.config.h2 (toBits n 64)
  refine ⟨_, _, _, rfl, rfl, hp, hq, fun i _ => or_mask_pair_getLsbD.trans ?_,
    exec_log_of_hash hparse (hash_of_matrix hsel n)⟩
  rw [Nat.mod_eq_of_lt hp, Nat.mod_eq_of_lt hq]

/-- Settles O33: the verdict says what `has` finds at the hasher's pair, and the rest is the commit of R96. -/
theorem queryReportsMembershipAndRefreshes : Obligations.QueryReportsMembershipAndRefreshes :=
  fun _ n s hparse =>
    ⟨_, _, s.queryVerdict n, rfl, queryVerdict_eq_possiblyPresent, exec_query_natCast hparse⟩

/-- Settles O34: both commits begin their events with the pair of the active hasher. -/
theorem bothCommandsUseTheConfiguredHasher : Obligations.BothCommandsUseTheConfiguredHasher := by
  intro arg n s hparse
  exact ⟨(hash s.config n).position1, (hash s.config n).position2, _, _, fun hsel => (hash_of_shift hsel n).symm,
    fun hsel => (hash_of_matrix hsel n).symm, exec_log_natCast hparse, by simp, exec_query_natCast hparse, by simp⟩

/-- Settles O35: a log's effect on the register depends on the positions mod 32, and those on the low ten bits. -/
theorem lowTenBitsDecideTheBitsSet : Obligations.LowTenBitsDecideTheBitsSet := by
  intro a b n m s hsel ha hb hmod
  refine ⟨_, _, exec_log_natCast ha, exec_log_natCast hb, BitVec.eq_of_getLsbD_eq fun i _ => Bool.eq_iff_iff.mpr ?_⟩
  simp only [afterLog_bits_getLsbD, hash_of_shift hsel, shiftHash_position1_mod_32, shiftHash_position2_mod_32, hmod]

/-- Settles O36: no bit is set, so the query's verdict is not possibly-present. -/
theorem emptyFilterReportsAbsent : Obligations.EmptyFilterReportsAbsent :=
  fun _ n s hbits hparse => ⟨_, exec_query_natCast hparse, by
    rw [afterQuery_output_getLast?, queryVerdict_of_bits_zero hbits n]⟩

/-- Settles O37: a command changes no configuration, so it ends the second time as the first, and its write repeats. -/
theorem repeatedCommandsAreIdempotent : Obligations.RepeatedCommandsAreIdempotent := by
  refine fun arg s s1 => ⟨fun h => ?_, fun h => ?_⟩
  · rcases execLog_cases h with ⟨hp, rfl⟩ | ⟨v, hp, hv, rfl⟩ | ⟨n, hp, rfl⟩
    · exact ⟨_, exec_of_parse_failure (.inl rfl) hp, rfl⟩
    · exact ⟨_, exec_of_negative (.inl rfl) hp hv, rfl⟩
    · exact ⟨_, exec_log_natCast hp, afterLog_afterLog_tracker n s⟩
  · rcases execQuery_cases h with ⟨hp, rfl⟩ | ⟨v, hp, hv, rfl⟩ | ⟨n, hp, rfl⟩
    · exact ⟨_, exec_of_parse_failure (.inr rfl) hp, rfl⟩
    · exact ⟨_, exec_of_negative (.inr rfl) hp hv, rfl⟩
    · exact ⟨_, exec_query_natCast hp, afterQuery_afterQuery_tracker n s⟩

/-- Settles O30: `log` and `query` share the argument check, which raises the fault before anything else runs. -/
theorem negativeArgumentSetsOnlyTheFaultMark : Obligations.NegativeArgumentSetsOnlyTheFaultMark :=
  fun _ _ _ hparse hv => ⟨exec_of_negative (.inl rfl) hparse hv, exec_of_negative (.inr rfl) hparse hv⟩

end Sys2Proof.Proofs
end

section
/-!
PROOFS. What every instruction, step and run leaves unchanged, and how a line ends (spec/10_state.md; spec/60_exceptions.md;
spec/70_reset_and_hazards.md section 1).
-/
namespace Sys2Proof.Machine

theorem step_of_fault {s : State} {f : Fault} (h : s.fault = some f) : step s = .fault f := by
  simp only [step, h]

/-- With no line waiting a step holds the state (R117, R118). -/
theorem step_nil {s : State} (hfault : s.fault = none) (hinput : s.input = []) : step s = .next s := by
  simp only [step, hfault, fetch_nil hinput, State.await]

/-- The diagnostic output and the statuses of `s'` extend those of `s` at their ends (R31). -/
def DiagnosticsGrow (s s' : State) : Prop := s.output <+: s'.output ∧ s.statuses <+: s'.statuses

theorem DiagnosticsGrow.refl (s : State) : DiagnosticsGrow s s := ⟨List.prefix_rfl, List.prefix_rfl⟩

theorem DiagnosticsGrow.trans {s t u : State} (h : DiagnosticsGrow s t) (h' : DiagnosticsGrow t u) :
    DiagnosticsGrow s u :=
  ⟨h.1.trans h'.1, h.2.trans h'.2⟩

theorem Effect.diagnosticsGrow {s s' : State} (h : Effect s s') : DiagnosticsGrow s s' := by
  cases h with
  | commit | recoverableError => exact ⟨List.prefix_append _ _, List.prefix_append _ _⟩
  | raise | deliver => exact .refl s

theorem step_diagnosticsGrow {s s' : State} (h : step s = .next s') : DiagnosticsGrow s s' := by
  obtain rfl | ⟨rest, he⟩ := step_effect h
  · exact .refl _
  · exact he.diagnosticsGrow

theorem run_diagnosticsGrow : ∀ (n : Nat) (s s' : State), run n s = .next s' → DiagnosticsGrow s s' :=
  run_induction .refl fun _ _ _ hstep ih => (step_diagnosticsGrow hstep).trans ih

/-- Rendering event by event keeps the order of growth (R32). -/
theorem combinedText_prefix_of_output {s s' : State} (h : s.output <+: s'.output) : s.combinedText <+: s'.combinedText := by
  obtain ⟨es, hes⟩ := h
  exact ⟨es.flatMap Config.diagRender, by rw [State.combinedText, State.combinedText, ← hes, List.flatMap_append]⟩

/-- A command that records a status other than OK is a recoverable error (R101 to R103). -/
theorem Completion.of_error_status {s s' : State} {i : Instr} {st : Status} (h : Completion s i s')
    (hstatuses : s'.statuses = s.statuses ++ [st]) (hst : st ≠ .ok) : ∃ e, s' = s.recoverableError e st := by
  cases h with
  | usage | log | query => simp [hst.symm] at hstatuses
  | negative | unit => simp at hstatuses
  | invalid | parseFailure =>
    obtain rfl : _ = st := by simpa using hstatuses
    exact ⟨_, rfl⟩

theorem has_congr {f g : Filter} (h : f.bits = g.bits) (ps : List Nat) : has f ps = has g ps := by
  simp only [has, h]

theorem queryVerdict_congr {s t : State} (hbits : t.tracker.filter.bits = s.tracker.filter.bits)
    (hconfig : t.config = s.config) (n : Nat) : t.queryVerdict n = s.queryVerdict n := by
  rw [State.queryVerdict, State.queryVerdict, hconfig, has_congr hbits]

/-- A command reads the register, the configuration and the fault mark only: on a state that agrees in these it ends in the
same way, with the same register, mark and new events. -/
theorem Completion.transfer {s t s' : State} {i : Instr} (h : Completion s i s') (hline : i.isLine = true)
    (hbits : t.tracker.filter.bits = s.tracker.filter.bits) (hconfig : t.config = s.config)
    (hfault : t.fault = s.fault) :
    ∃ t' events, exec i t = .next t' ∧ t'.tracker.filter.bits = s'.tracker.filter.bits ∧ t'.fault = s'.fault ∧
      s'.output = s.output ++ events ∧ t'.output = t.output ++ events := by
  cases h with
  | usage =>
    exact ⟨_, _, exec_usage t, hbits, hfault, rfl, by rw [State.commit_output, hconfig]⟩
  | invalid reason => exact ⟨_, _, exec_invalid reason t, hbits, hfault, rfl, rfl⟩
  | parseFailure hi hparse =>
    exact ⟨_, _, exec_of_parse_failure hi (hconfig ▸ hparse), hbits, hfault, rfl, rfl⟩
  | negative hi hparse hv =>
    exact ⟨_, [], exec_of_negative hi (hconfig ▸ hparse) hv, hbits, rfl, (List.append_nil _).symm,
      (List.append_nil _).symm⟩
  | @log arg n hparse =>
    have hfilter : (t.afterLog n).tracker.filter.bits = (s.afterLog n).tracker.filter.bits := by
      simp only [State.afterLog_tracker, insert, hbits, hconfig]
    exact ⟨_, _, exec_log_natCast (hconfig ▸ hparse), hfilter, hfault, rfl, by rw [State.afterLog_output, hconfig]⟩
  | @query arg n hparse =>
    exact ⟨_, _, exec_query_natCast (hconfig ▸ hparse), hbits, hfault, rfl,
      by rw [State.afterQuery_output, hconfig, queryVerdict_congr hbits hconfig]⟩
  | unit hi => cases hline.symm.trans hi

end Sys2Proof.Machine

namespace Sys2Proof.Proofs

open Sys2Proof.Machine

/-- Settles O38: of the ways a command ends only the fault writes the mark, and none the other three fields. -/
theorem commandsWriteOnlyTrackerAndDiagnostics : Obligations.CommandsWriteOnlyTrackerAndDiagnostics := by
  intro i s s' hline h
  cases exec_completion h with
  | usage | invalid | parseFailure | log | query => exact ⟨rfl, rfl, rfl, .inl rfl⟩
  | negative hi hparse hv => exact ⟨rfl, rfl, rfl, .inr ⟨_, _, hi, hparse, hv, rfl⟩⟩
  | unit hi => cases hline.symm.trans hi

/-- Settles O39: every way of ending but the accepted `log` keeps the register. -/
theorem onlyAcceptedLogChangesBits : Obligations.OnlyAcceptedLogChangesBits := by
  intro i s s' h hne
  obtain hbits | ⟨arg, n, hi, hparse, -⟩ := (exec_completion h).bits_eq
  · exact absurd hbits hne
  · exact ⟨arg, n, hi, hparse⟩

/-- Settles O40: only an accepted command replaces the tracker state, and a disabled query puts `lastHash` back. -/
theorem onlyAcceptedCommandsWriteDisplayState : Obligations.OnlyAcceptedCommandsWriteDisplayState := by
  intro i s s' h
  cases exec_completion h with
  | usage | invalid | parseFailure | negative | unit => exact ⟨fun hne => absurd rfl hne, fun hne => absurd rfl hne⟩
  | log hparse => exact ⟨fun _ => ⟨_, _, .inl rfl, hparse⟩, fun _ => ⟨_, _, hparse, .inl rfl⟩⟩
  | query hparse =>
    refine ⟨fun _ => ⟨_, _, .inr rfl, hparse⟩, fun hne => ⟨_, _, hparse, .inr ⟨rfl, ?_⟩⟩⟩
    by_contra hdisabled
    exact hne (if_neg hdisabled)

/-- Settles O41: the fetch takes the head line; a placed word's line is the head, and taking it restores the state. -/
theorem stepRunsTheDecodedLine : Obligations.StepRunsTheDecodedLine := by
  refine ⟨fun s line rest hfault hinput => step_cons hfault hinput, fun s nbits w i hfault hdecode => ?_⟩
  obtain rfl : decode (lineOfWord nbits w) = i := Option.some.inj hdecode
  exact step_cons (s := s.withFetchWord nbits w) (rest := s.input) hfault rfl

/-- Settles O42: the step tests the mark first, and a run stops at its first fault. -/
theorem faultedBlockTakesNoStep : Obligations.FaultedBlockTakesNoStep :=
  fun _ _ hfault => ⟨step_of_fault hfault, fun _ => run_succ_fault (step_of_fault hfault)⟩

/-- Settles O43, by induction on the number of steps. -/
theorem idleBlockHoldsItsState : Obligations.IdleBlockHoldsItsState := by
  intro s hfault hinput n
  induction n with
  | zero => rfl
  | succ n ih => exact (run_succ_next (step_nil hfault hinput)).trans ih

/-- Settles O45: the line's command answers a next state, and each way it can end is one of the cases named. -/
theorem everyLineEndsInOneWay : Obligations.EveryLineEndsInOneWay := by
  intro s line rest hfault hinput
  obtain ⟨s', hexec⟩ := exec_line_next (decode_isLine line) (s.setInput rest)
  refine ⟨s', (step_cons hfault hinput).trans hexec, ?_⟩
  have hline := decode_isLine line
  have hwf := decode_wellFormed line
  revert hexec hline hwf
  generalize decode line = i
  intro hexec hline hwf
  cases exec_completion hexec with
  | usage => exact .inl ⟨rfl, hfault, rfl⟩
  | invalid reason =>
    obtain rfl : reason = invalidReason := beq_iff_eq.mp hwf
    exact .inr (.inl ⟨rfl, hfault, rfl⟩)
  | parseFailure hi hparse => exact .inr (.inr ⟨_, hi, .inl ⟨hparse, hfault, rfl⟩⟩)
  | negative hi hparse hv => exact .inr (.inr ⟨_, hi, .inr (.inl ⟨_, hparse, hv, rfl, rfl⟩)⟩)
  | @log arg n hparse =>
    exact .inr (.inr ⟨arg, .inl rfl, .inr (.inr ⟨n, hparse, Int.natCast_nonneg n, hfault, rfl⟩)⟩)
  | @query arg n hparse =>
    exact .inr (.inr ⟨arg, .inr rfl, .inr (.inr ⟨n, hparse, Int.natCast_nonneg n, hfault, rfl⟩)⟩)
  | unit hi => cases hline.symm.trans hi

/-- Settles O46: a status other than OK comes from a recoverable error alone, which emits one event. -/
theorem errorsLeaveTheTrackerUnchanged : Obligations.ErrorsLeaveTheTrackerUnchanged := by
  intro s s' st h hstatuses hst
  obtain ⟨hfault, ⟨-, rfl⟩ | ⟨line, rest, -, hexec⟩⟩ := step_cases h
  · simp at hstatuses
  · obtain ⟨e, rfl⟩ := (exec_completion hexec).of_error_status hstatuses hst
    exact ⟨rfl, hfault, e, rfl⟩

/-- Settles O49: every effect only appends, so every run does, and the text follows the events. -/
theorem diagnosticOutputOnlyGrows : Obligations.DiagnosticOutputOnlyGrows := by
  intro n s s' h
  obtain ⟨houtput, hstatuses⟩ := run_diagnosticsGrow n s s' h
  exact ⟨houtput, combinedText_prefix_of_output houtput, hstatuses⟩

/-- Settles O51: both states wait or take the same line, whose command reads neither `newlySet` nor `lastHash`. -/
theorem displayStateIsNeverRead : Obligations.DisplayStateIsNeverRead := by
  intro s t s' hbits hconfig hinput hfault h
  obtain ⟨hnone, ⟨hnil, rfl⟩ | ⟨line, rest, hcons, hexec⟩⟩ := step_cases h
  · exact ⟨t, [], step_nil (hfault.trans hnone) (hinput.trans hnil), hbits, hfault, (List.append_nil _).symm,
      (List.append_nil _).symm⟩
  · rw [step_cons (hfault.trans hnone) (hinput.trans hcons)]
    exact (exec_completion hexec).transfer (t := t.setInput rest) (decode_isLine line) hbits hconfig hfault

end Sys2Proof.Proofs
end

section
/-!
PROOFS. The conversions and the hashers applied directly (spec/40_bitutils.md to spec/42_matrix_hasher.md).
-/
namespace Sys2Proof.Machine

theorem exec_toBits_of_pos {width : Nat} (h : 1 ≤ width) (value : Nat) (s : State) :
    exec (.toBits value width) s = .next (s.deliver (.bits (toBits value width))) := by
  simp only [exec, execToBits, Nat.one_le_iff_ne_zero.mp h, if_false]

theorem exec_toBits_zero (value : Nat) (s : State) : exec (.toBits value 0) s = .refused .toBitsWidth0 := rfl

theorem exec_fromBits (l : List Bit) (s : State) :
    exec (.fromBits l) s = .next (s.deliver (.nat (fromBits l))) := rfl

theorem exec_shiftHash_natCast (n : Nat) (s : State) :
    exec (.shiftHash n) s = .next (s.deliver (.pair (shiftHash n))) := by
  simp only [exec, execShiftHash, natural_natCast]

theorem exec_shiftHash_of_neg {v : Int} (hv : v < 0) (s : State) :
    exec (.shiftHash v) s = .refused .hashNegValue := by
  simp only [exec, execShiftHash, natural_eq_none.mpr hv]

theorem toBits_getElem? (v : Nat) {w i : Nat} (h : i < w) : (toBits v w)[i]? = some (v.testBit (w - 1 - i)) := by
  have hi : i < (toBits v w).length := (toBits_length v w).symm ▸ h
  rw [List.getElem?_eq_getElem hi, toBits_getElem]

/-- The first element of a list is the most significant digit (R64). -/
theorem fromBits_cons (b : Bit) (l : List Bit) : fromBits (b :: l) = b.toNat * 2 ^ l.length + fromBits l := by
  induction l using List.reverseRecOn with
  | nil => simp [fromBits]
  | append_singleton l c ih =>
    rw [← List.cons_append, fromBits_append_singleton, fromBits_append_singleton, ih, List.length_append,
      List.length_singleton, pow_succ]
    ring

theorem fromBits_eq_sum (l : List Bit) :
    fromBits l = ∑ i : Fin l.length, (l[i]).toNat * 2 ^ (l.length - 1 - i.val) := by
  induction l with
  | nil => rfl
  | cons b l ih =>
    rw [fromBits_cons, ih]
    refine Eq.trans ?_ (Fin.sum_univ_succ (n := l.length) _).symm
    refine congrArg₂ (· + ·) rfl (Finset.sum_congr rfl fun i _ => ?_)
    have hexp : (b :: l).length - 1 - i.succ.val = l.length - 1 - i.val := by
      rw [List.length_cons, Fin.val_succ]; omega
    rw [hexp]
    rfl

/-- Beyond its length a list spells no bit (R64). -/
theorem fromBits_testBit_of_le {l : List Bit} {k : Nat} (h : l.length ≤ k) : (fromBits l).testBit k = false :=
  Nat.testBit_lt_two_pow ((fromBits_lt l).trans_le (Nat.pow_le_pow_right (by decide) h))

theorem fromBits_toBits {v w : Nat} (h : v < 2 ^ w) : fromBits (toBits v w) = v := by
  refine Nat.eq_of_testBit_eq fun k => ?_
  rcases lt_or_ge k w with hk | hk
  · have hidx : w - 1 - (w - 1 - k) = k := by omega
    rw [fromBits_testBit _ _ (by rwa [toBits_length]), toBits_getElem, toBits_length, hidx]
  · rw [fromBits_testBit_of_le ((toBits_length v w).trans_le hk)]
    exact (Nat.testBit_lt_two_pow (h.trans_le (Nat.pow_le_pow_right (by decide) hk))).symm

theorem toBits_fromBits (l : List Bit) : toBits (fromBits l) l.length = l := by
  refine List.ext_getElem (toBits_length _ _) fun i _ hi => ?_
  have hidx : l.length - 1 - (l.length - 1 - i) = i := by omega
  rw [toBits_getElem, fromBits_testBit l _ (by omega)]
  simp only [hidx]

theorem shiftHash_position1_lt {n k : Nat} (h : n < 2 ^ (2 * k)) : (shiftHash n).position1 < 2 ^ k := by
  refine Nat.lt_pow_two_of_testBit _ fun i hi => ?_
  rw [shiftHash_position1_testBit]
  exact Nat.testBit_lt_two_pow (h.trans_le (Nat.pow_le_pow_right (by decide) (by omega)))

theorem shiftHash_position2_lt {n k : Nat} (h : n < 2 ^ (2 * k)) : (shiftHash n).position2 < 2 ^ k := by
  refine Nat.lt_pow_two_of_testBit _ fun i hi => ?_
  rw [shiftHash_position2_testBit]
  exact Nat.testBit_lt_two_pow (h.trans_le (Nat.pow_le_pow_right (by decide) (by omega)))

/-- A position is not reduced: it exceeds every bound that one of its bits exceeds (R69). -/
theorem two_pow_le_shiftHash_position2 (k : Nat) : 2 ^ k ≤ (shiftHash (2 ^ (2 * k))).position2 :=
  Nat.ge_two_pow_of_testBit (by rw [shiftHash_position2_testBit, Nat.testBit_two_pow_self])

/-- The parity of a count is additive over the symmetric difference. -/
theorem decide_countP_xor_odd {α : Type} (f g h : α → Bool) (l : List α) :
    decide (l.countP (fun x => h x && (f x ^^ g x)) % 2 = 1) =
      (decide (l.countP (fun x => h x && f x) % 2 = 1) ^^ decide (l.countP (fun x => h x && g x) % 2 = 1)) := by
  rw [Bool.eq_iff_iff, Bool.xor_iff_ne]
  simp only [ne_eq, decide_eq_decide, decide_eq_true_iff]
  induction l with
  | nil => simp
  | cons x l ih =>
    simp only [List.countP_cons]
    cases h x <;> cases f x <;> cases g x <;> simp <;> omega

/-- One entry of the product is linear over GF(2). -/
theorem rowParity_xor (row : BitVec 64) (a b : Nat) :
    rowParity row (toBits (a ^^^ b) 64) = (rowParity row (toBits a 64) ^^ rowParity row (toBits b 64)) := by
  simp only [rowParity_toBits, Nat.testBit_xor]
  exact decide_countP_xor_odd _ _ _ _

end Sys2Proof.Machine

namespace Sys2Proof.Proofs

open Sys2Proof.Machine

/-- Settles O10: the unit delivers `toBits`, whose elements and truncation have their own lemmas. -/
theorem toBitsDeliversMostSignificantFirst : Obligations.ToBitsDeliversMostSignificantFirst := by
  refine fun value width s hpos => ⟨⟨_, exec_toBits_of_pos hpos value s, toBits_length value width,
    fun i hi => toBits_getElem? value hi⟩, ?_⟩
  rw [exec_toBits_of_pos hpos, exec_toBits_of_pos hpos, toBits_mod_two_pow]

/-- Settles O11: the unit delivers `fromBits`, whose sum is peeled off from the most significant digit. -/
theorem fromBitsDeliversTheWeightedSum : Obligations.FromBitsDeliversTheWeightedSum :=
  fun l s => ⟨_, exec_fromBits l s, fromBits_eq_sum l, fromBits_lt l⟩

/-- Settles O12: bit by bit in one direction, element by element in the other. -/
theorem bitConversionsAreInverse : Obligations.BitConversionsAreInverse :=
  ⟨fun _ _ => fromBits_toBits, toBits_fromBits⟩

/-- Settles O13: the unit delivers the model's pair, and R66's loop is known bit by bit. -/
theorem shiftHasherSplitsOddAndEvenBits : Obligations.ShiftHasherSplitsOddAndEvenBits :=
  fun n s => ⟨_, _, exec_shiftHash_natCast n s, shiftHash_position1_testBit n, shiftHash_position2_testBit n⟩

/-- Settles O14: a position has no bit that the value has not at twice its place; 1024 has the position 32. -/
theorem shiftHasherHalvesTheWidth : Obligations.ShiftHasherHalvesTheWidth :=
  ⟨fun _ _ h => ⟨shiftHash_position1_lt h, shiftHash_position2_lt h⟩, 2 ^ (2 * 5), two_pow_le_shiftHash_position2 5⟩

/-- Settles O17: every bit of a product is one row's parity, which is linear. -/
theorem matrixProductIsLinear : Obligations.MatrixProductIsLinear := by
  intro h a b
  refine Nat.eq_of_testBit_eq fun k => ?_
  rw [Nat.testBit_xor]
  rcases lt_or_ge k 5 with hk | hk
  · obtain ⟨i, hi, rfl⟩ : ∃ i, i < (matrixRows h).length ∧ k = 4 - i := ⟨4 - k, by show 4 - k < 5; omega, by omega⟩
    simp only [matmul_testBit h _ i hi, rowParity_xor]
  · have hhigh : ∀ v, (matmul h v).testBit k = false := fun v => fromBits_testBit_of_le hk
    simp only [hhigh, Bool.xor_false]

end Sys2Proof.Proofs
end

section
/-!
PROOFS. The BloomFilter's units applied directly (spec/43_bloom_filter.md), and the contract of all nine units
(spec/60_exceptions.md R111).
-/
namespace Sys2Proof

theorem nonNegative_iff {ps : List Int} : nonNegative ps = true ↔ ∀ p ∈ ps, 0 ≤ p := by
  simp [nonNegative]

theorem not_nonNegative_iff {ps : List Int} : ¬ nonNegative ps = true ↔ ∃ p ∈ ps, p < 0 := by
  simp [nonNegative_iff]

end Sys2Proof

namespace Sys2Proof.Machine

theorem exec_mask_of_naturals {ps : List Int} {ns : List Nat} (h : naturals ps = some ns) (s : State) :
    exec (.mask ps) s = .next (s.deliver (.word (mask ns))) := by
  simp only [exec, execMask, h]

theorem exec_mask_of_neg {ps : List Int} (hneg : ∃ p ∈ ps, p < 0) (s : State) :
    exec (.mask ps) s = .refused .maskNegPosition := by
  simp only [exec, execMask, naturals_eq_none.mpr hneg]

theorem exec_dedup (ps : List Nat) (s : State) :
    exec (.dedup ps) s = .next (s.deliver (.positions (dedup ps))) := rfl

theorem exec_has_of_naturals {ps : List Int} {ns : List Nat} (hlen : ps.length = 2) (h : naturals ps = some ns)
    (f : Filter) (s : State) : exec (.has f ps) s = .next (s.deliver (.bool (has f ns))) := by
  simp only [exec, execHas, hlen, h, ne_eq, not_true, if_false]

theorem exec_has_of_neg {ps : List Int} (hlen : ps.length = 2) (hneg : ∃ p ∈ ps, p < 0) (f : Filter) (s : State) :
    exec (.has f ps) s = .refused .maskNegPosition := by
  simp only [exec, execHas, hlen, naturals_eq_none.mpr hneg, ne_eq, not_true, if_false]

theorem exec_has_of_arity {ps : List Int} (hlen : ps.length ≠ 2) (f : Filter) (s : State) :
    exec (.has f ps) s = .refused .hasArity :=
  if_pos hlen

theorem mask_getLsbD_eq_true {ps : List Nat} {i : Nat} : (mask ps).getLsbD i = true ↔ ∃ p ∈ ps, p % 32 = i := by
  simp [mask_getLsbD]

/-- Each set bit of a mask is some position's reduction, so there are no more of them than positions. -/
theorem mask_countP_le (ps : List Nat) : (List.range 32).countP (fun i => (mask ps).getLsbD i) ≤ ps.length := by
  have hsub : (List.range 32).filter (fun i => (mask ps).getLsbD i) ⊆ ps.map (· % 32) := fun i hi => by
    obtain ⟨p, hp, hpi⟩ := mask_getLsbD_eq_true.mp (List.of_mem_filter hi)
    exact List.mem_map.mpr ⟨p, hp, hpi⟩
  rw [List.countP_eq_length_filter]
  exact (List.subperm_of_subset (List.nodup_range.filter _) hsub).length_le.trans_eq (List.length_map _)

theorem mask_countP_pos {ps : List Nat} (h : ps ≠ []) :
    1 ≤ (List.range 32).countP (fun i => (mask ps).getLsbD i) := by
  obtain ⟨p, hp⟩ := List.exists_mem_of_ne_nil ps h
  exact List.countP_pos_iff.mpr
    ⟨p % 32, List.mem_range.mpr (Nat.mod_lt p (by decide)), mask_getLsbD_eq_true.mpr ⟨p, hp, rfl⟩⟩

theorem nodup_dedup (ps : List Nat) : (dedup ps).Nodup := by
  induction ps using List.reverseRecOn with
  | nil => exact List.nodup_nil
  | append_singleton ps x ih =>
    rw [dedup_append_singleton]
    split
    · exact ih
    · next hx => exact List.nodup_append.mpr ⟨ih, List.nodup_singleton x, fun a ha b hb =>
        List.mem_singleton.mp hb ▸ ne_of_mem_of_not_mem ha hx⟩

/-- Members of the front of a list keep their order in the whole list, before any new last element. -/
theorem idxOf_append_singleton_lt {l : List Nat} {x p q : Nat} (hx : x ∉ l) (hp : p ∈ l ++ [x]) (hq : q ∈ l ++ [x]) :
    (l ++ [x]).idxOf p < (l ++ [x]).idxOf q ↔ p ∈ l ∧ (q ∈ l → l.idxOf p < l.idxOf q) := by
  have hlast : (l ++ [x]).idxOf x = l.length := by simp [List.idxOf_append_of_notMem hx]
  rw [List.mem_append, List.mem_singleton] at hp hq
  rcases hp with hp | rfl <;> rcases hq with hq | rfl
  · simp [List.idxOf_append_of_mem hp, List.idxOf_append_of_mem hq, hp, hq]
  · simp [List.idxOf_append_of_mem hp, hlast, hp, hx, List.idxOf_lt_length_of_mem hp]
  · simp [List.idxOf_append_of_mem hq, hlast, hx, (List.idxOf_lt_length_of_mem hq).le]
  · simp [hx]

/-- What `dedup` keeps stands in the order of first occurrence (R83). -/
theorem dedup_idxOf_lt {ps : List Nat} {p q : Nat} (hp : p ∈ ps) (hq : q ∈ ps) :
    (dedup ps).idxOf p < (dedup ps).idxOf q ↔ ps.idxOf p < ps.idxOf q := by
  induction ps using List.reverseRecOn with
  | nil => cases hp
  | append_singleton ps x ih =>
    rw [dedup_append_singleton]
    split
    · next hx =>
      have hold : ∀ y ∈ ps ++ [x], y ∈ ps := fun y hy => by
        rcases List.mem_append.mp hy with hy | hy
        · exact hy
        · exact List.mem_singleton.mp hy ▸ mem_dedup.mp hx
      rw [List.idxOf_append_of_mem (hold p hp), List.idxOf_append_of_mem (hold q hq)]
      exact ih (hold p hp) (hold q hq)
    · next hx =>
      have hmem : ∀ y, y ∈ dedup ps ++ [x] ↔ y ∈ ps ++ [x] := fun y => by simp [mem_dedup]
      rw [idxOf_append_singleton_lt hx ((hmem p).mpr hp) ((hmem q).mpr hq),
        idxOf_append_singleton_lt (mt mem_dedup.mpr hx) hp hq]
      simp only [mem_dedup]
      exact and_congr_right fun hp' => forall_congr' fun hq' => ih hp' hq'

/-- A register to which bits have been added still holds a pair inserted before. -/
theorem has_later_insert (f : Filter) (ps : List Nat) (later : List (List Nat)) {qs : List Nat}
    (h : ∀ q ∈ qs, ∃ p ∈ ps, p % 32 = q % 32) : has (later.foldl insert (insert f ps)) qs = true := by
  obtain ⟨m, hm⟩ := foldl_insert_bits_eq_or later (insert f ps)
  refine has_eq_true.mpr fun q hq => ?_
  exact getLsbD_of_eq_or hm (insert_bits_getLsbD_eq_true.mpr (.inr (h q hq)))

/-- Within its contract a unit delivers a value (R62, R81). -/
theorem exec_unit_of_wellFormed {i : Instr} (hunit : i.isLine = false) (hwf : WellFormed i) (s : State) :
    ∃ v, exec i s = .next (s.deliver v) := by
  cases i with
  | usage | log | query | invalid => cases hunit
  | fromBits | dedup | refresh => exact ⟨_, rfl⟩
  | toBits value width => exact ⟨_, exec_toBits_of_pos (of_decide_eq_true hwf) value s⟩
  | shiftHash value =>
    lift value to Nat using of_decide_eq_true hwf
    exact ⟨_, exec_shiftHash_natCast value s⟩
  | matrixHash value =>
    lift value to Nat using of_decide_eq_true hwf
    exact ⟨_, exec_matrixHash_natCast value s⟩
  | mask positions =>
    lift positions to List Nat using nonNegative_iff.mp hwf
    exact ⟨_, exec_mask_of_naturals (naturals_natCast positions) s⟩
  | insert existing positions =>
    lift positions to List Nat using nonNegative_iff.mp hwf
    exact ⟨_, exec_insert_natCast existing positions s⟩
  | has filter positions =>
    obtain ⟨hlen, hnonneg⟩ := Bool.and_eq_true_iff.mp hwf
    lift positions to List Nat using nonNegative_iff.mp hnonneg
    exact ⟨_, exec_has_of_naturals (of_decide_eq_true hlen) (naturals_natCast positions) filter s⟩

/-- Outside its contract a unit is refused (R111). -/
theorem exec_unit_of_not_wellFormed {i : Instr} (hunit : i.isLine = false) (hwf : ¬ WellFormed i) (s : State) :
    ∃ r, exec i s = .refused r := by
  cases i with
  | usage | log | query | invalid => cases hunit
  | fromBits | dedup | refresh => exact absurd rfl hwf
  | toBits value width =>
    obtain rfl : width = 0 := by simpa [Instr.wellFormed] using hwf
    exact ⟨_, exec_toBits_zero value s⟩
  | shiftHash value => exact ⟨_, exec_shiftHash_of_neg (not_le.mp (mt decide_eq_true hwf)) s⟩
  | matrixHash value => exact ⟨_, exec_matrixHash_of_neg (not_le.mp (mt decide_eq_true hwf)) s⟩
  | mask positions => exact ⟨_, exec_mask_of_neg (not_nonNegative_iff.mp hwf) s⟩
  | insert existing positions => exact ⟨_, exec_insert_of_neg (not_nonNegative_iff.mp hwf) existing s⟩
  | has filter positions =>
    by_cases hlen : positions.length = 2
    · have hneg : ¬ nonNegative positions = true := fun h =>
        hwf (Bool.and_eq_true_iff.mpr ⟨decide_eq_true hlen, h⟩)
      exact ⟨_, exec_has_of_neg hlen (not_nonNegative_iff.mp hneg) filter s⟩
    · exact ⟨_, exec_has_of_arity hlen filter s⟩

end Sys2Proof.Machine

namespace Sys2Proof.Proofs

open Sys2Proof.Machine

/-- Settles O18: the unit delivers the mask, whose bits are the reduced positions. -/
theorem maskSetsExactlyTheReducedPositions : Obligations.MaskSetsExactlyTheReducedPositions :=
  fun ps s => ⟨_, exec_mask_of_naturals (naturals_natCast ps) s, fun _ _ => mask_getLsbD_eq_true, mask_countP_le ps,
    mask_countP_pos⟩

/-- Settles O19: each property of `dedup` by induction on the list from its end, where the fold appends. -/
theorem dedupKeepsFirstOccurrences : Obligations.DedupKeepsFirstOccurrences :=
  fun ps s => ⟨_, exec_dedup ps s, nodup_dedup ps, fun _ => mem_dedup, fun _ _ => dedup_idxOf_lt⟩

/-- Settles O21: two naturals meet the contract, and `has` on a pair tests both reduced bits. -/
theorem hasTestsBothReducedBits : Obligations.HasTestsBothReducedBits :=
  fun f p q s => ⟨_, exec_has_of_naturals rfl (naturals_natCast [p, q]) f s, has_pair⟩

/-- Settles O23: one lemma for each refusal of R111. -/
theorem unitsRefuseUsesOutsideTheirContract : Obligations.UnitsRefuseUsesOutsideTheirContract :=
  fun s => ⟨fun v => exec_toBits_zero v s, fun _ hv => ⟨exec_shiftHash_of_neg hv s, exec_matrixHash_of_neg hv s⟩,
    fun _ hneg => ⟨exec_mask_of_neg hneg s, fun f => exec_insert_of_neg hneg f s,
      fun f hlen => exec_has_of_neg hlen hneg f s⟩,
    fun f _ hlen => exec_has_of_arity hlen f s⟩

/-- Settles O24: unit by unit, the contract is the well-formedness check. -/
theorem unitsCompleteWithinContractAndWriteNothing : Obligations.UnitsCompleteWithinContractAndWriteNothing :=
  fun _ s hunit => ⟨fun hwf => exec_unit_of_wellFormed hunit hwf s, fun hwf => exec_unit_of_not_wellFormed hunit hwf s⟩

/-- Settles O26: the insertion sets both reduced bits, which raw and reduced positions select alike. -/
theorem insertedPairsAreFound : Obligations.InsertedPairsAreFound :=
  fun f p q later => ⟨has_later_insert f [p, q] later (by simp), has_later_insert f [p, q] later (by simp)⟩

end Sys2Proof.Proofs
end

section
/-!
PROOFS. Argument strings (spec/30_encoding.md section 3): the strict grammar (R56) and the strings every parser reads alike.
-/
namespace Sys2Proof.Machine

/-- The DIGIT of R56 with a given value. -/
def digitChar (d : Fin 10) : Character := Char.ofNat (48 + d.val)

theorem digitChar_toNat (d : Fin 10) : (digitChar d).toNat = 48 + d.val := by
  revert d; decide

theorem digitChar_ne_minus (d : Fin 10) : digitChar d ≠ '-' := by
  revert d; decide

theorem digitValue_digitChar (d : Fin 10) : digitValue (digitChar d) = some d.val := by
  revert d; decide

theorem digitValue_eq_some {c : Character} {n : Nat} (h : digitValue c = some n) :
    ∃ d : Fin 10, c = digitChar d ∧ n = d.val := by
  unfold digitValue at h
  split at h
  · next hc =>
    cases h
    obtain ⟨hlo, hhi⟩ := hc
    refine ⟨⟨c.toNat - 48, by omega⟩, Char.toNat_inj.mp ?_, rfl⟩
    rw [digitChar_toNat, Nat.add_sub_cancel' hlo]
  · cases h

/-- Horner's value of a string of digits read after `acc`. -/
theorem decimalFrom_map_digitChar (ds : List (Fin 10)) (acc : Nat) :
    decimalFrom acc (ds.map digitChar) =
      some (acc * 10 ^ ds.length + Nat.ofDigits 10 (ds.reverse.map Fin.val)) := by
  induction ds generalizing acc with
  | nil => simp [decimalFrom]
  | cons d ds ih =>
    rw [List.map_cons, decimalFrom, digitValue_digitChar, Option.bind_some, ih, List.reverse_cons, List.map_append,
      Nat.ofDigits_append, List.length_map, List.length_reverse, List.length_cons, List.map_singleton,
      Nat.ofDigits_singleton, pow_succ]
    congr 1
    ring

/-- Only a string of digits has a decimal value (R56). -/
theorem exists_digits_of_decimalFrom {line : Line} {acc n : Nat} (h : decimalFrom acc line = some n) :
    ∃ ds : List (Fin 10), line = ds.map digitChar := by
  induction line generalizing acc with
  | nil => exact ⟨[], rfl⟩
  | cons c cs ih =>
    obtain ⟨v, hv, hrest⟩ := Option.bind_eq_some_iff.mp h
    obtain ⟨d, rfl, -⟩ := digitValue_eq_some hv
    obtain ⟨ds, rfl⟩ := ih hrest
    exact ⟨d :: ds, rfl⟩

/-- `DIGIT DIGIT*` of R56, with its base-10 value. -/
theorem decimal_eq_some {line : Line} {n : Nat} :
    decimal line = some n ↔
      ∃ ds : List (Fin 10), ds ≠ [] ∧ line = ds.map digitChar ∧ n = Nat.ofDigits 10 (ds.reverse.map Fin.val) := by
  have hvalue : ∀ {ds : List (Fin 10)}, ds ≠ [] →
      decimal (ds.map digitChar) = some (Nat.ofDigits 10 (ds.reverse.map Fin.val)) := fun {ds} hne => by
    obtain ⟨d, ds, rfl⟩ := List.exists_cons_of_ne_nil hne
    refine (decimalFrom_map_digitChar (d :: ds) 0).trans ?_
    rw [Nat.zero_mul, Nat.zero_add]
  constructor
  · intro h
    obtain ⟨ds, hne, rfl⟩ : ∃ ds : List (Fin 10), ds ≠ [] ∧ line = ds.map digitChar := by
      cases line with
      | nil => cases h
      | cons c cs =>
        obtain ⟨ds, hds⟩ := exists_digits_of_decimalFrom h
        have hne : ds ≠ [] := by rintro rfl; cases hds
        exact ⟨ds, hne, hds⟩
    exact ⟨ds, hne, rfl, Option.some.inj (h.symm.trans (hvalue hne))⟩
  · rintro ⟨ds, hne, rfl, rfl⟩
    exact hvalue hne

/-- The two forms of R56: digits after a minus sign, or digits alone. -/
theorem strictArgParse_eq_some {arg : Line} {v : Int} :
    strictArgParse arg = some v ↔
      (∃ n : Nat, decimal arg = some n ∧ v = n) ∨ (∃ digits n, arg = '-' :: digits ∧ decimal digits = some n ∧
        v = -(n : Int)) := by
  cases arg with
  | nil => simp [strictArgParse, decimal]
  | cons c cs =>
    by_cases hc : c = '-'
    · subst hc
      have hdecimal : decimal ('-' :: cs) = none := rfl
      simp [strictArgParse, hdecimal, eq_comm]
    · simp [strictArgParse, hc, eq_comm]

/-- R56 asks every parser to agree with the strict grammar on these three strings. -/
theorem argParse_example (c : Config) {arg : Line} (h : arg = ['5'] ∨ arg = ['7'] ∨ arg = ['a', 'b', 'c']) :
    argParse c arg = strictArgParse arg := by
  cases hparser : c.argParse with
  | strict => simp only [argParse, hparser]
  | host => simp only [argParse, hparser, hostArgParse, if_pos h]

end Sys2Proof.Machine

namespace Sys2Proof.Proofs

open Sys2Proof.Machine

/-- Settles O7: each of the two forms is a string of digits with its base-10 value. -/
theorem strictGrammarAcceptsExactlySignedDecimals : Obligations.StrictGrammarAcceptsExactlySignedDecimals := by
  intro arg v
  rw [strictArgParse_eq_some]
  constructor
  · rintro (⟨n, hn, rfl⟩ | ⟨digits, n, rfl, hn, rfl⟩) <;> obtain ⟨ds, hne, rfl, rfl⟩ := decimal_eq_some.mp hn
    · exact ⟨ds, hne, .inl ⟨rfl, rfl⟩⟩
    · exact ⟨ds, hne, .inr ⟨rfl, rfl⟩⟩
  · rintro ⟨ds, hne, ⟨rfl, rfl⟩ | ⟨rfl, rfl⟩⟩
    · exact .inl ⟨_, decimal_eq_some.mpr ⟨ds, hne, rfl, rfl⟩, rfl⟩
    · exact .inr ⟨_, _, rfl, decimal_eq_some.mpr ⟨ds, hne, rfl, rfl⟩, rfl⟩

/-- Settles O9: on these strings both parsers are the strict one, and 5 and 7 lie in every legal range. -/
theorem legalConfigurationsParseTheExamples : Obligations.LegalConfigurationsParseTheExamples := by
  intro c hlegal
  obtain ⟨hmin, hmax, -⟩ := hlegal
  obtain ⟨haccept, hreject⟩ := parseArgChecksTheRange
  refine ⟨(haccept c _ _).mpr ⟨argParse_example c (.inl rfl), by omega, by omega⟩,
    (haccept c _ _).mpr ⟨argParse_example c (.inr (.inl rfl)), by omega, by omega⟩,
    (hreject c _).mpr fun v hv => ?_⟩
  rw [argParse_example c (.inr (.inr rfl))] at hv
  cases hv

end Sys2Proof.Proofs
end

section
/-!
PROOFS. The vectors' lines as bytes (spec/95_test_vectors.md section 3) and the reset (spec/10_state.md section 4).
-/
namespace Sys2Proof.Machine

theorem legalUsageText_advertisedVerbs : Config.legalUsageText Config.advertisedVerbs := by decide

/-- R27's constraints hold of the configuration at reset, whatever the OPEN constants are. -/
theorem legal_atReset : Config.atReset.legal := by
  refine ⟨min_le_right _ _, le_max_right _ _, ?_⟩
  by_cases htext : Config.legalUsageText Config.openUsageText
  · rw [Config.atReset, if_pos htext]
    exact htext
  · rw [Config.atReset, if_neg htext]
    exact legalUsageText_advertisedVerbs

end Sys2Proof.Machine

namespace Sys2Proof.Proofs

open Sys2Proof.Machine

/-- Settles O1, by decoding the five lines. -/
theorem specLinesDecodeToTheirCommands : Obligations.SpecLinesDecodeToTheirCommands := by
  unfold Obligations.SpecLinesDecodeToTheirCommands
  decide

/-- Settles O58: R35's values and R27's defaults are those the reset is defined with. -/
theorem resetGivesTheStatedValues : Obligations.ResetGivesTheStatedValues :=
  ⟨fun c => ⟨State.resetWith_tracker c, State.resetWith_fault c, State.resetWith_config c⟩, rfl, rfl, rfl⟩

/-- Settles O59: the reset keeps the configuration it is given, and that one is legal. -/
theorem resetConfigurationIsLegal : Obligations.ResetConfigurationIsLegal :=
  ⟨legal_atReset, rfl⟩

end Sys2Proof.Proofs
end
